-- ==== Sys2Proof/Word.lean ====
section
/-! DEFINITION. The word and byte types (spec/00_scope.md rules R5 and R13). -/

namespace Sys2Proof

/-- A stack element, a local slot, an ALU result or an emitted value: `WORD = 32` bits, read as a
two's-complement signed integer (rule R5). -/
abbrev Word := BitVec 32

/-- One byte of the program buffer (rule R13: "A byte is 8 bits"). -/
abbrev Byte := BitVec 8

end Sys2Proof
end

