-- ==== Sys2Proof/Config.lean ====
section
/-! DEFINITION. What an implementation fixes: the parameters of spec/00_scope.md rules R6 to R12,
as plain data. Their default values stand in `Decode.lean`. -/

namespace Sys2Proof

/-- `NLOCALS`: "exactly 10 signed 32-bit slots, indexed 0–9" (rule R6, fixed). -/
abbrev numLocals : Nat := 10

/-- The names of the 17 opcodes, the keys of `OPCODE_MAP` (rules R2 and R77). -/
inductive Opcode where
  | constZero | pushByte | loadLocal | storeLocal | pop | dup | add | sub | mul | div | rem
  | shrArith | incLocal | branchIfZero | goto | ret | print
deriving DecidableEq, Repr

/-- The thirteen replaceable entries of `OPCODE_MAP` (rule R11). The four values the source gives
(push-byte, add, print, return) are no fields: no map may change them. -/
structure OpcodeMap where
  constZero    : Byte
  loadLocal    : Byte
  storeLocal   : Byte
  pop          : Byte
  dup          : Byte
  sub          : Byte
  mul          : Byte
  div          : Byte
  rem          : Byte
  shrArith     : Byte
  incLocal     : Byte
  branchIfZero : Byte
  goto         : Byte
deriving DecidableEq, Repr

/-- The implementation parameters, fixed at start and never changed by a step (rules R7 to R12, R21). -/
structure Params where
  /-- `STACK_CAPACITY`: `none` is an unbounded operand stack (rule R7). -/
  stackCapacity    : Option Nat
  /-- `PROG_MAX`: the longest program buffer a run may start with (rule R8). -/
  progMax          : Nat
  /-- `INSTR_BUDGET`: `none` is no budget (rule R9). -/
  instrBudget      : Option Nat
  /-- `DIV_OVERFLOW_FAULT`: whether `-2^31` divided by `-1` raises `DivisionByZero` (rule R10). -/
  divOverflowFault : Bool
  /-- `OPCODE_MAP` (rule R11). -/
  opcodeMap        : OpcodeMap
  /-- `PC_BITS`: the width of a physical PC register, never observable (rule R12). -/
  pcBits           : Nat
deriving DecidableEq, Repr

end Sys2Proof
end

