-- ==== Sys2Proof/Syntax.lean ====
section
/-! DEFINITION. The instructions: one constructor for each of the 17 rows of spec/opcode_table.json
(spec/00_scope.md rule R2). Operands are the values the encoding rules R73 to R76 assemble:
a signed byte, an unsigned index byte, a signed delta byte, a signed 16-bit offset. -/

namespace Sys2Proof

/-- An instruction with its assembled operands. `ret` is the table's `return`. -/
inductive Instr where
  /-- `const-zero` (rule R130). -/
  | constZero
  /-- `push-byte v` (rule R133). -/
  | pushByte (v : Int)
  /-- `load-local n` (rule R180). -/
  | loadLocal (n : Nat)
  /-- `store-local n` (rule R181). -/
  | storeLocal (n : Nat)
  /-- `pop` (rule R131). -/
  | pop
  /-- `dup` (rule R132). -/
  | dup
  /-- `add` (rule R151). -/
  | add
  /-- `sub` (rule R152). -/
  | sub
  /-- `mul` (rule R153). -/
  | mul
  /-- `div` (rule R155). -/
  | div
  /-- `rem` (rule R156). -/
  | rem
  /-- `shr-arith` (rule R157). -/
  | shrArith
  /-- `inc-local n, d` (rule R182). -/
  | incLocal (n : Nat) (d : Int)
  /-- `branch-if-zero off` (rule R201). -/
  | branchIfZero (off : Int)
  /-- `goto off` (rule R202). -/
  | goto (off : Int)
  /-- `return` (rule R205). -/
  | ret
  /-- `print` (rule R220). -/
  | print
deriving DecidableEq, Repr

end Sys2Proof
end

