-- ==== Sys2Proof/WellFormed.lean ====
section
/-! DEFINITION. Which operands an encoding can hold (spec/30_encoding.md rules R73 to R76, and the
same ranges in rule R81). An index above 9 is well formed: it is legal at decode and faults when
the instruction executes (rules R75 and R79). -/

namespace Sys2Proof

/-- A value of a signed byte field: in `[-128, 127]` (rules R73 and R76). -/
def fitsSignedByte (v : Int) : Bool := decide (-128 ≤ v) && decide (v ≤ 127)

/-- A value of an index byte: in `[0, 255]` (rule R75). -/
def fitsIndexByte (n : Nat) : Bool := decide (n ≤ 255)

/-- A value of the 16-bit offset field: in `[-32768, 32767]` (rule R74). -/
def fitsOffset (off : Int) : Bool := decide (-32768 ≤ off) && decide (off ≤ 32767)

/-- Every operand is a value its field can hold. -/
def Instr.wellFormed : Instr → Bool
  | .constZero => true
  | .pushByte v => fitsSignedByte v
  | .loadLocal n => fitsIndexByte n
  | .storeLocal n => fitsIndexByte n
  | .pop => true
  | .dup => true
  | .add => true
  | .sub => true
  | .mul => true
  | .div => true
  | .rem => true
  | .shrArith => true
  | .incLocal n d => fitsIndexByte n && fitsSignedByte d
  | .branchIfZero off => fitsOffset off
  | .goto off => fitsOffset off
  | .ret => true
  | .print => true

end Sys2Proof
end

