-- ==== Sys2Proof/Decode.lean ====
section
/-! DEFINITION. The opcode map, the decoder (total on any bytes) and the encoder
(spec/30_encoding.md). -/

namespace Sys2Proof

/-! ### Opcode map (rules R11 and R77) and the default parameters -/

/-- Every opcode, in the order of the table of rule R77. -/
def Opcode.all : List Opcode :=
  [.constZero, .pushByte, .loadLocal, .storeLocal, .pop, .dup, .add, .sub, .mul, .div, .rem,
   .shrArith, .incLocal, .branchIfZero, .goto, .ret, .print]

/-- The thirteen byte values of the spec's decision D1 (rule R77). -/
def OpcodeMap.default : OpcodeMap where
  constZero    := 0x03
  loadLocal    := 0x15
  storeLocal   := 0x36
  pop          := 0x57
  dup          := 0x59
  sub          := 0x64
  mul          := 0x68
  div          := 0x6c
  rem          := 0x70
  shrArith     := 0x7a
  incLocal     := 0x84
  branchIfZero := 0x99
  goto         := 0xa7

/-- The default parameters (spec/00_scope.md rules R7 to R12). They stand here, beside the default map,
because a definition of this file may be mended later. -/
def Params.default : Params where
  stackCapacity    := none
  progMax          := 1024
  instrBudget      := none
  divOverflowFault := false
  opcodeMap        := OpcodeMap.default
  pcBits           := 11

/-- The byte of an opcode. push-byte, add, print and return have the source's values under every
map (rule R11). -/
def OpcodeMap.byteOf (m : OpcodeMap) : Opcode → Byte
  | .constZero => m.constZero
  | .pushByte => 0x10
  | .loadLocal => m.loadLocal
  | .storeLocal => m.storeLocal
  | .pop => m.pop
  | .dup => m.dup
  | .add => 0x60
  | .sub => m.sub
  | .mul => m.mul
  | .div => m.div
  | .rem => m.rem
  | .shrArith => m.shrArith
  | .incLocal => m.incLocal
  | .branchIfZero => m.branchIfZero
  | .goto => m.goto
  | .ret => 0xb1
  | .print => 0xbb

/-- The map is injective, as rule R11 asks of every `OPCODE_MAP`. -/
abbrev OpcodeMap.Valid (m : OpcodeMap) : Prop := (Opcode.all.map m.byteOf).Nodup

/-- The opcode a byte names, if any: "the opcode alone selects the instruction" (rule R70). -/
def opcodeAt (m : OpcodeMap) (b : Byte) : Option Opcode :=
  Opcode.all.find? fun op => m.byteOf op == b

/-! ### Formats and lengths (rules R71 and R72) -/

/-- The five formats of rule R71. -/
inductive Format where
  | N | B | X | XD | O
deriving DecidableEq, Repr

/-- The format of each opcode (rule R71, last column). -/
def Opcode.format : Opcode → Format
  | .constZero => .N
  | .pushByte => .B
  | .loadLocal => .X
  | .storeLocal => .X
  | .pop => .N
  | .dup => .N
  | .add => .N
  | .sub => .N
  | .mul => .N
  | .div => .N
  | .rem => .N
  | .shrArith => .N
  | .incLocal => .XD
  | .branchIfZero => .O
  | .goto => .O
  | .ret => .N
  | .print => .N

/-- `len`: 1 for format N, 2 for formats B and X, and 3 for formats XD and O (rule R72). -/
def Format.length : Format → Nat
  | .N => 1
  | .B => 2
  | .X => 2
  | .XD => 3
  | .O => 3

/-- `len(op)` (rule R72). -/
def Opcode.length (op : Opcode) : Nat := op.format.length

/-- The opcode of an instruction. -/
def Instr.opcode : Instr → Opcode
  | .constZero => .constZero
  | .pushByte _ => .pushByte
  | .loadLocal _ => .loadLocal
  | .storeLocal _ => .storeLocal
  | .pop => .pop
  | .dup => .dup
  | .add => .add
  | .sub => .sub
  | .mul => .mul
  | .div => .div
  | .rem => .rem
  | .shrArith => .shrArith
  | .incLocal _ _ => .incLocal
  | .branchIfZero _ => .branchIfZero
  | .goto _ => .goto
  | .ret => .ret
  | .print => .print

/-- The bytes an instruction occupies: "1 opcode byte plus a fixed number of immediate bytes". -/
def Instr.length (i : Instr) : Nat := i.opcode.length

/-! ### Operand assembly (rules R13 and R73 to R76) -/

/-- `sext_8` (rule R13). -/
def sext8 (b : Byte) : Int := b.toInt

/-- `zext_8` (rule R13). -/
def zext8 (b : Byte) : Nat := b.toNat

/-- `sext_16(b1 ++ b2)`: big-endian, the byte at the lower offset holds bits 15 to 8
(rules R54 and R74). -/
def sext16 (b1 b2 : Byte) : Int := (b1 ++ b2).toInt

/-! ### The decoder -/

/-- Why a byte string is no instruction. -/
inductive DecodeError where
  /-- There is no opcode byte. -/
  | noByte
  /-- The first byte is in no entry of the opcode map (rule R78). -/
  | unknownOpcode (b : Byte)
  /-- The opcode is known and an immediate byte is missing (rule R102). -/
  | truncated (op : Opcode)
deriving DecidableEq, Repr

/-- Reads one immediate byte. -/
def readOne (op : Opcode) (rest : List Byte) (f : Byte → Instr) :
    Except DecodeError (Instr × List Byte) :=
  match rest with
  | b1 :: r => .ok (f b1, r)
  | [] => .error (.truncated op)

/-- Reads two immediate bytes. -/
def readTwo (op : Opcode) (rest : List Byte) (f : Byte → Byte → Instr) :
    Except DecodeError (Instr × List Byte) :=
  match rest with
  | b1 :: b2 :: r => .ok (f b1 b2, r)
  | [_] => .error (.truncated op)
  | [] => .error (.truncated op)

/-- The operands of a known opcode, from the bytes after it. -/
def decodeOperands (op : Opcode) (rest : List Byte) : Except DecodeError (Instr × List Byte) :=
  match op with
  | .constZero => .ok (.constZero, rest)
  | .pushByte => readOne op rest fun b1 => .pushByte (sext8 b1)
  | .loadLocal => readOne op rest fun b1 => .loadLocal (zext8 b1)
  | .storeLocal => readOne op rest fun b1 => .storeLocal (zext8 b1)
  | .pop => .ok (.pop, rest)
  | .dup => .ok (.dup, rest)
  | .add => .ok (.add, rest)
  | .sub => .ok (.sub, rest)
  | .mul => .ok (.mul, rest)
  | .div => .ok (.div, rest)
  | .rem => .ok (.rem, rest)
  | .shrArith => .ok (.shrArith, rest)
  | .incLocal => readTwo op rest fun b1 b2 => .incLocal (zext8 b1) (sext8 b2)
  | .branchIfZero => readTwo op rest fun b1 b2 => .branchIfZero (sext16 b1 b2)
  | .goto => readTwo op rest fun b1 b2 => .goto (sext16 b1 b2)
  | .ret => .ok (.ret, rest)
  | .print => .ok (.print, rest)

/-- The instruction at the front of a byte string and the bytes after it, or why there is none.
The opcode check comes before any length check (rules R102 and R234). -/
def decode (m : OpcodeMap) (bytes : List Byte) : Except DecodeError (Instr × List Byte) :=
  match bytes with
  | [] => .error .noByte
  | b0 :: rest =>
    match opcodeAt m b0 with
    | none => .error (.unknownOpcode b0)
    | some op => decodeOperands op rest

/-! ### The encoder -/

/-- The low 8 bits of a signed operand (rules R73 and R76). -/
def byteOfInt (v : Int) : Byte := BitVec.ofInt 8 v

/-- The low 8 bits of an index (rule R75). -/
def byteOfNat (n : Nat) : Byte := BitVec.ofNat 8 n

/-- `off[15:8]`, the byte at the lower offset (rules R54 and R71). -/
def offsetHigh (off : Int) : Byte := (BitVec.ofInt 16 off).extractLsb' 8 8

/-- `off[7:0]`, the byte at the higher offset (rules R54 and R71). -/
def offsetLow (off : Int) : Byte := (BitVec.ofInt 16 off).extractLsb' 0 8

/-- The immediate bytes of an instruction, in buffer order (rule R71). -/
def operandBytes : Instr → List Byte
  | .constZero => []
  | .pushByte v => [byteOfInt v]
  | .loadLocal n => [byteOfNat n]
  | .storeLocal n => [byteOfNat n]
  | .pop => []
  | .dup => []
  | .add => []
  | .sub => []
  | .mul => []
  | .div => []
  | .rem => []
  | .shrArith => []
  | .incLocal n d => [byteOfNat n, byteOfInt d]
  | .branchIfZero off => [offsetHigh off, offsetLow off]
  | .goto off => [offsetHigh off, offsetLow off]
  | .ret => []
  | .print => []

/-- The bytes of an instruction, opcode first (rule R70). -/
def encode (m : OpcodeMap) (i : Instr) : List Byte := m.byteOf i.opcode :: operandBytes i

/-! ### Words numbered as spec/opcode_table.json numbers them -/

/-- The longest instruction is three bytes (rule R71). -/
abbrev maxLength : Nat := 3

/-- The bytes of an instruction whose bits are `w`: bit 0 is the least significant bit of the first
byte, the second byte is bits 15 to 8, and every bit from `nbits` up is 0. -/
def tableBytes (nbits w : Nat) : List Byte :=
  (List.range maxLength).map fun k => BitVec.ofNat 8 (w % 2 ^ nbits / 2 ^ (8 * k))

/-- The instruction the decoder reads from a word of the opcode table, under the default map. -/
def decodeTableWord (nbits w : Nat) : Option Instr :=
  match decode OpcodeMap.default (tableBytes nbits w) with
  | .ok (i, _) => some i
  | .error _ => none

end Sys2Proof
end

