-- ==== Sys2Proof/Machine/State.lean ====
section
/-! DEFINITION. The engine's state as plain data (spec/10_state.md), the ways a step can stop, and
reset. -/

namespace Sys2Proof.Machine

/-- The fault kinds of spec/60_exceptions.md rule R230, in the order of their codes. -/
inductive FaultKind where
  | stackUnderflow
  | invalidIndex
  | divisionByZero
  | unknownOpcode
  | truncatedProgram
  | capacityExceeded
  | timeout
deriving DecidableEq, Repr

/-- `run`, the one control state (rule R31). -/
inductive RunState where
  | running
  | haltedOk
  | haltedFault (kind : FaultKind)
deriving DecidableEq, Repr

/-- The program buffer (rule R50): `size` is `PROG_LEN`, and `cells` lists, by rising offset, the
bytes that are not `0x00`. An unlisted offset below `size` holds `0x00`. -/
structure Memory where
  cells : List Host.Cell
  size  : Nat
deriving DecidableEq, Repr

/-- The state of one run, the tuple `(pc, stk, L, run, out, icount)` of rule R20, together with what
rule R21 binds at start: the program buffer and the implementation parameters. -/
structure State where
  /-- Byte offset of the next opcode to fetch (rule R22). -/
  pc     : Nat
  /-- The operand stack, top of stack FIRST (rule R27). -/
  stk    : List Word
  /-- The local variable bank `L[0..9]` (rule R25). -/
  locals : Vector Word numLocals
  /-- The run state (rule R31). -/
  run    : RunState
  /-- The values written by `print`, oldest first (rule R34). -/
  out    : List Word
  /-- The instruction counter, moved only when `INSTR_BUDGET` is set (rule R35). -/
  icount : Nat
  /-- The program buffer and its length, never changed by a step (rules R21 and R51). -/
  prog   : Memory
  /-- The implementation parameters, never changed by a step (rule R21). -/
  params : Params
deriving DecidableEq, Repr

/-- Why the model has no next state. -/
inductive Fault where
  /-- Raised by `step` alone, on a state whose `run` is halted: there "no step is enabled, for good"
  (rule R100). Safe: the spec gives such a state no step either. A fault of the ENGINE is no such
  stop: it is a next state with `run` at `haltedFault` (rule R235). -/
  | notRunning
deriving DecidableEq, Repr

/-- What the model gives no meaning. -/
inductive Refusal where
  /-- An instruction that has no meaning yet. Raised by no arm of `exec`: all 17 have theirs. -/
  | notModelled (mnemonic : String)
  /-- Raised by the host transaction `start` alone, on a program longer than `PROG_MAX`: "`refuse` at
  `start`" (spec/93_implementation_defined.md U12, rule R8). Safe. -/
  | programTooLong
deriving DecidableEq, Repr

/-! ### Field updates -/

/-- `pc <- n`. -/
def State.setPc (s : State) (n : Nat) : State := { s with pc := n }
/-- The operand stack replaced. -/
def State.setStk (s : State) (l : List Word) : State := { s with stk := l }
/-- The run state replaced. -/
def State.setRun (s : State) (r : RunState) : State := { s with run := r }
/-- The output history replaced. -/
def State.setOut (s : State) (o : List Word) : State := { s with out := o }
/-- The instruction counter replaced. -/
def State.setIcount (s : State) (n : Nat) : State := { s with icount := n }
/-- `L[n] <- v`. -/
def State.setLocal (s : State) (n : Fin numLocals) (v : Word) : State :=
  { s with locals := s.locals.set n v }
/-- The program buffer replaced (by the host only). -/
def State.setProg (s : State) (m : Memory) : State := { s with prog := m }

/-! ### Reset -/

/-- The program buffer before any program is loaded. -/
def Memory.empty : Memory where
  cells := []
  size  := 0

/-- The start state of a run (the table of rule R38) with its buffer and parameters bound
(rule R41). -/
def State.initial (p : Params) (m : Memory) : State where
  pc     := 0
  stk    := []
  locals := Vector.replicate numLocals 0
  run    := .running
  out    := []
  icount := 0
  prog   := m
  params := p

/-- The machine right after reset: default parameters and nothing loaded (rules R38 and R270). -/
def State.reset : State := State.initial Params.default Memory.empty

end Sys2Proof.Machine
end

