-- ==== Sys2Proof/Machine/Memory.lean ====
section
/-! DEFINITION. The program buffer (spec/20_memory.md): reading it, and the host's loading of it.
No instruction writes it (rule R51), so nothing here but `read` and `window` is called by a step. -/

namespace Sys2Proof.Machine

/-- What an offset that lists no byte reads as, below `PROG_LEN`. -/
def unlistedByte : Byte := 0x00

/-- The byte listed for an offset, or the unlisted byte. -/
def lookupCell : List Host.Cell → Nat → Byte
  | [], _ => unlistedByte
  | (k, b) :: rest, a => if k = a then b else lookupCell rest a

/-- `MemRead(a, 1)`: `prog[a]` for `0 <= a < PROG_LEN`; no other offset exists (rule R52). -/
def Memory.read (m : Memory) (a : Nat) : Option Byte :=
  if a < m.size then some (lookupCell m.cells a) else none

/-- The bytes at `a`, `a+1` and `a+2` that lie inside the buffer: at most one instruction's
(rule R56). -/
def Memory.window (m : Memory) (a : Nat) : List Byte :=
  (List.range maxLength).filterMap fun k => m.read (a + k)

/-- The cells of a byte sequence whose first byte stands at offset `a`. -/
def cellsOf : Nat → List Byte → List Host.Cell
  | _, [] => []
  | a, b :: bs => if b = unlistedByte then cellsOf (a + 1) bs else (a, b) :: cellsOf (a + 1) bs

/-- The buffer that holds exactly these bytes from offset 0 (rules R41 and R272). -/
def Memory.load (bytes : List Byte) : Memory where
  cells := cellsOf 0 bytes
  size  := bytes.length

/-- One byte placed in the cells, in the one canonical form. -/
def writeCell : List Host.Cell → Nat → Byte → List Host.Cell
  | [], a, b => if b = unlistedByte then [] else [(a, b)]
  | (k, c) :: rest, a, b =>
    if k < a then (k, c) :: writeCell rest a b
    else if k = a then (if b = unlistedByte then rest else (a, b) :: rest)
    else (if b = unlistedByte then (k, c) :: rest else (a, b) :: (k, c) :: rest)

/-- One byte placed by the host; the buffer grows to hold it. -/
def Memory.write (m : Memory) (a : Nat) (b : Byte) : Memory where
  cells := writeCell m.cells a b
  size  := max m.size (a + 1)

/-- Bytes placed by the host, the first at `a`. -/
def Memory.place (m : Memory) (a : Nat) : List Byte → Memory
  | [] => m
  | b :: bs => (m.write a b).place (a + 1) bs

/-- The offsets rise strictly from above `lo`, none lists the unlisted byte, all lie below `size`. -/
def cellsWf (size : Nat) : Nat → List Host.Cell → Bool
  | _, [] => true
  | lo, (k, b) :: rest =>
    decide (lo ≤ k) && decide (k < size) && (b != unlistedByte) && cellsWf size (k + 1) rest

/-- The canonical form: equal buffers are equal data. -/
def Memory.wf (m : Memory) : Bool := cellsWf m.size 0 m.cells

end Sys2Proof.Machine
end

