-- ==== Sys2Proof/Machine/Ops.lean ====
section
/-! DEFINITION. The named operations every instruction is built from
(spec/40_fetch_decode_execute.md rules R101 to R115), raising a fault among them
(spec/60_exceptions.md rule R235). There is no return from a fault to put beside it (rule R236). -/

namespace Sys2Proof.Machine

/-- A part of a step: it went on with a value, or it raised a fault and ended the step with the
effects already performed (rule R107). -/
inductive Phase (α : Type) where
  | ok (value : α) (s : State)
  | raised (s : State)

/-- Goes on after a part that raised nothing; a raise ends the step at once (rule R106). -/
def Phase.andThen {α β : Type} (p : Phase α) (k : α → State → Phase β) : Phase β :=
  match p with
  | .ok v s => k v s
  | .raised s => .raised s

/-! ### Taking a fault, and halting -/

/-- The state a fault leaves: `run <- HaltedFault(F)`, and everything else keeps its current value
(rule R235). -/
def faulted (kind : FaultKind) (s : State) : State := s.setRun (.haltedFault kind)

/-- `raise F(info)`: the fault is recorded and the step ends (rule R235). The `info` is diagnostic
only and recorded nowhere (rule R231). -/
def raise {α : Type} (kind : FaultKind) (s : State) : Phase α := .raised (faulted kind s)

/-- `halt_ok()` (rule R206). -/
def haltOk (s : State) : State := s.setRun .haltedOk

/-! ### Operand stack (rules R110 to R113) -/

/-- `Depth()` (rule R113). -/
def depth (s : State) : Nat := s.stk.length

/-- `Push(v)` (rule R110). -/
def push (v : Word) (s : State) : Phase Unit :=
  if s.params.stackCapacity = some (depth s) then raise .capacityExceeded s
  else .ok () (s.setStk (v :: s.stk))

/-- `Pop()` (rule R111). -/
def pop (s : State) : Phase Word :=
  match s.stk with
  | [] => raise .stackUnderflow s
  | t :: rest => .ok t (s.setStk rest)

/-- `Peek()` (rule R112). -/
def peek (s : State) : Phase Word :=
  match s.stk with
  | [] => raise .stackUnderflow s
  | t :: _ => .ok t s

/-! ### Local bank (rule R114) -/

/-- `CheckIndex(n)`: raises `InvalidIndex` when `n > 9`; otherwise the index names a slot. -/
def checkIndex (n : Nat) (s : State) : Phase (Fin numLocals) :=
  if h : n < numLocals then .ok ⟨n, h⟩ s else raise .invalidIndex s

/-- `L[n]`. -/
def readLocal (n : Fin numLocals) (s : State) : Word := s.locals[n]

/-- `L[n] <- v`. -/
def writeLocal (n : Fin numLocals) (v : Word) (s : State) : State := s.setLocal n v

/-! ### Output (spec/45_output.md rule R221) -/

/-- `Emit(x)`: appends `x` to `out`. -/
def emit (x : Word) (s : State) : State := s.setOut (s.out ++ [x])

/-! ### Fetch and decode (rules R101 and R102) -/

/-- The budget is set and used up: the step raises `Timeout` (rules R101 and R241). -/
abbrev budgetSpent (s : State) : Prop := s.params.instrBudget = some s.icount

/-- The instruction at `pc`, or the fault that fetching it raises. A fetch at or past `PROG_LEN`, and
an instruction whose immediates cross it, raise `TruncatedProgram`; a byte the opcode map lacks
raises `UnknownOpcode`. -/
def fetch (s : State) : Phase Instr :=
  match decode s.params.opcodeMap (s.prog.window s.pc) with
  | .ok (i, _) => .ok i s
  | .error .noByte => raise .truncatedProgram s
  | .error (.unknownOpcode _) => raise .unknownOpcode s
  | .error (.truncated _) => raise .truncatedProgram s

/-! ### The end of a step (rules R104 to R106) -/

/-- `if run = Running: pc <- next` (rule R104). -/
def advance (next : Nat) (s : State) : State :=
  if s.run = .running then s.setPc next else s

/-- `if INSTR_BUDGET is set: icount <- icount + 1` (rule R105). -/
def countInstruction (s : State) : State :=
  if s.params.instrBudget.isSome then s.setIcount (s.icount + 1) else s

/-- The last two lines of `step()` (rule R106). -/
def retire (next : Nat) (s : State) : State := countInstruction (advance next s)

/-- Ends the step after an execute phase whose value is `next`. A raise has ended it already. -/
def complete (p : Phase Nat) : Host.Outcome State Fault Refusal :=
  match p with
  | .ok next s => .next (retire next s)
  | .raised s => .next s

/-- Ends the step of an instruction of `n` bytes that leaves `next` at `pc + n` (rule R104). -/
def fallThrough (n : Nat) (p : Phase Unit) : Host.Outcome State Fault Refusal :=
  complete (p.andThen fun _ s => .ok (s.pc + n) s)

end Sys2Proof.Machine
end

