-- ==== Sys2Proof/Machine/Operands.lean ====
section
/-! DEFINITION. Operand forms: immediates as words, the ALU's operand pair
(spec/42_alu.md rule R150) and the branch target (spec/44_control.md rules R200 and R203). The
only other operand form, the slot index, is `checkIndex` of `Ops.lean`. -/

namespace Sys2Proof.Machine

/-- `i32(v)`: two's-complement wrap to 32 bits (spec/00_scope.md rule R13). -/
def i32 (v : Int) : Word := BitVec.ofInt 32 v

/-- The common shape of the ALU instructions: pop `t`, pop `s`, push `s OP t`. The operation answers
`none` where it raises `DivisionByZero`, after both pops (rules R150, R155 and R156). -/
def aluOp (op : Word → Word → Option Word) (st : State) : Phase Unit :=
  (pop st).andThen fun t st =>
  (pop st).andThen fun s st =>
  match op s t with
  | some r => push r st
  | none => raise .divisionByZero st

/-- The target of a taken branch, `p + off` in mathematical integers with no wrap (rule R200), where
`p` is the offset of the instruction's own opcode; outside `[0, PROG_LEN)` it raises
`TruncatedProgram` (rule R203). -/
def branchTarget (off : Int) (s : State) : Phase Nat :=
  if (s.pc : Int) + off < 0 ∨ (s.prog.size : Int) ≤ (s.pc : Int) + off then
    raise .truncatedProgram s
  else .ok ((s.pc : Int) + off).toNat s

end Sys2Proof.Machine
end

