-- ==== Sys2Proof/Machine/Alu.lean ====
section
/-! DEFINITION. The ALU instructions (spec/42_alu.md). In every operation the first argument is `s`,
the element below the top, and the second is `t`, the former top (rule R150;
spec/90_conflicts.md C1). -/

namespace Sys2Proof.Machine

/-- `i32(s + t)` (rule R151). -/
def aluAdd (s t : Word) : Word := i32 (s.toInt + t.toInt)

/-- `i32(s - t)` (rule R152). -/
def aluSub (s t : Word) : Word := i32 (s.toInt - t.toInt)

/-- `i32(s * t)` (rule R153). -/
def aluMul (s t : Word) : Word := i32 (s.toInt * t.toInt)

/-- The operands `-2^31` and `-1`, whose exact quotient is no 32-bit value (rules R155 and R156). -/
abbrev divOverflows (s t : Word) : Prop := s.toInt = -2147483648 ∧ t.toInt = -1

/-- `div`: the quotient rounded toward zero, `none` where `DivisionByZero` is raised (rule R155). -/
def aluDiv (overflowFaults : Bool) (s t : Word) : Option Word :=
  if t = 0 then none
  else if divOverflows s t then (if overflowFaults then none else some (i32 (-2147483648)))
  else some (i32 (Int.tdiv s.toInt t.toInt))

/-- `rem`: `s - t * trunc0(s / t)`, `none` where `DivisionByZero` is raised (rule R156). -/
def aluRem (overflowFaults : Bool) (s t : Word) : Option Word :=
  if t = 0 then none
  else if divOverflows s t then (if overflowFaults then none else some 0)
  else some (i32 (s.toInt - t.toInt * Int.tdiv s.toInt t.toInt))

/-- `k = t[4:0]`, the low 5 bits of the shift amount (rule R157). -/
def shiftAmount (t : Word) : Nat := (t.extractLsb' 0 5).toNat

/-- `floor(s / 2^k)` (rule R157). -/
def aluShr (s t : Word) : Word := i32 (Int.fdiv s.toInt (2 ^ shiftAmount t))

/-- `add` (rule R151). -/
def execAdd (s : State) : Host.Outcome State Fault Refusal :=
  fallThrough 1 (aluOp (fun a b => some (aluAdd a b)) s)

/-- `sub` (rule R152). -/
def execSub (s : State) : Host.Outcome State Fault Refusal :=
  fallThrough 1 (aluOp (fun a b => some (aluSub a b)) s)

/-- `mul` (rule R153). -/
def execMul (s : State) : Host.Outcome State Fault Refusal :=
  fallThrough 1 (aluOp (fun a b => some (aluMul a b)) s)

/-- `div` (rule R155). -/
def execDiv (s : State) : Host.Outcome State Fault Refusal :=
  fallThrough 1 (aluOp (aluDiv s.params.divOverflowFault) s)

/-- `rem` (rule R156). -/
def execRem (s : State) : Host.Outcome State Fault Refusal :=
  fallThrough 1 (aluOp (aluRem s.params.divOverflowFault) s)

/-- `shr-arith` (rule R157). -/
def execShrArith (s : State) : Host.Outcome State Fault Refusal :=
  fallThrough 1 (aluOp (fun a b => some (aluShr a b)) s)

end Sys2Proof.Machine
end

