-- ==== Sys2Proof/Machine/Flags.lean ====
section
/-! DEFINITION. "The engine has no flags, condition codes or predicates" (spec/10_state.md rule R30).
The one condition an instruction tests is on the value `branch-if-zero` pops. -/

namespace Sys2Proof.Machine

/-- The test of `branch-if-zero` (spec/44_control.md rule R201). -/
abbrev isZero (v : Word) : Prop := v = 0

end Sys2Proof.Machine
end

