-- ==== Sys2Proof/Machine/Control.lean ====
section
/-! DEFINITION. The control-transfer instructions (spec/44_control.md). -/

namespace Sys2Proof.Machine

/-- `branch-if-zero off`: the value is popped whether or not the branch is taken, and a branch not
taken does not check its target (rules R201 and R203). -/
def execBranchIfZero (off : Int) (s : State) : Host.Outcome State Fault Refusal :=
  complete ((pop s).andThen fun v s =>
    if isZero v then branchTarget off s else .ok (s.pc + 3) s)

/-- `goto off` (rule R202). -/
def execGoto (off : Int) (s : State) : Host.Outcome State Fault Refusal :=
  complete (branchTarget off s)

/-- `return`: `halt_ok()`. The run state is no longer `Running`, so the pc stays (rules R205, R206). -/
def execRet (s : State) : Host.Outcome State Fault Refusal :=
  fallThrough 1 (.ok () (haltOk s))

end Sys2Proof.Machine
end

