-- ==== Sys2Proof/Machine/Locals.lean ====
section
/-! DEFINITION. The local variable instructions (spec/43_locals.md). Each checks its index before it
touches the stack or the bank (rule R183). -/

namespace Sys2Proof.Machine

/-- `load-local n` (rule R180). -/
def execLoadLocal (n : Nat) (s : State) : Host.Outcome State Fault Refusal :=
  fallThrough 2 ((checkIndex n s).andThen fun k s => push (readLocal k s) s)

/-- `store-local n` (rule R181). -/
def execStoreLocal (n : Nat) (s : State) : Host.Outcome State Fault Refusal :=
  fallThrough 2 ((checkIndex n s).andThen fun k s =>
    (pop s).andThen fun v s => .ok () (writeLocal k v s))

/-- `inc-local n, d`: `L[n] <- i32(L[n] + d)` (rule R182). -/
def execIncLocal (n : Nat) (d : Int) (s : State) : Host.Outcome State Fault Refusal :=
  fallThrough 3 ((checkIndex n s).andThen fun k s =>
    .ok () (writeLocal k (i32 ((readLocal k s).toInt + d)) s))

end Sys2Proof.Machine
end

