-- ==== Sys2Proof/Machine/Output.lean ====
section
/-! DEFINITION. The output instruction (spec/45_output.md). -/

namespace Sys2Proof.Machine

/-- `print`: emits the top of the stack without popping it (rule R220). -/
def execPrint (s : State) : Host.Outcome State Fault Refusal :=
  fallThrough 1 ((peek s).andThen fun x s => .ok () (emit x s))

end Sys2Proof.Machine
end

