-- ==== Sys2Proof/Machine/Stack.lean ====
section
/-! DEFINITION. The stack instructions (spec/41_stack.md). -/

namespace Sys2Proof.Machine

/-- `const-zero` (rule R130). -/
def execConstZero (s : State) : Host.Outcome State Fault Refusal :=
  fallThrough 1 (push 0 s)

/-- `pop` (rule R131). -/
def execPop (s : State) : Host.Outcome State Fault Refusal :=
  fallThrough 1 ((pop s).andThen fun _ s => .ok () s)

/-- `dup` (rule R132). -/
def execDup (s : State) : Host.Outcome State Fault Refusal :=
  fallThrough 1 ((peek s).andThen fun t s => push t s)

/-- `push-byte v` (rule R133). -/
def execPushByte (v : Int) (s : State) : Host.Outcome State Fault Refusal :=
  fallThrough 2 (push (i32 v) s)

end Sys2Proof.Machine
end

