-- ==== Sys2Proof/Machine/Dispatch.lean ====
section
/-! DEFINITION. Dispatch: one arm for each instruction (spec/40_fetch_decode_execute.md rule R103). -/

namespace Sys2Proof.Machine

def exec (i : Instr) (s : State) : Host.Outcome State Fault Refusal :=
  match i with
  | .constZero => Sys2Proof.Machine.execConstZero s
  | .pushByte v => Sys2Proof.Machine.execPushByte v s
  | .loadLocal n => Sys2Proof.Machine.execLoadLocal n s
  | .storeLocal n => Sys2Proof.Machine.execStoreLocal n s
  | .pop => Sys2Proof.Machine.execPop s
  | .dup => Sys2Proof.Machine.execDup s
  | .add => Sys2Proof.Machine.execAdd s
  | .sub => Sys2Proof.Machine.execSub s
  | .mul => Sys2Proof.Machine.execMul s
  | .div => Sys2Proof.Machine.execDiv s
  | .rem => Sys2Proof.Machine.execRem s
  | .shrArith => Sys2Proof.Machine.execShrArith s
  | .incLocal n d => Sys2Proof.Machine.execIncLocal n d s
  | .branchIfZero off => Sys2Proof.Machine.execBranchIfZero off s
  | .goto off => Sys2Proof.Machine.execGoto off s
  | .ret => Sys2Proof.Machine.execRet s
  | .print => Sys2Proof.Machine.execPrint s

end Sys2Proof.Machine
end

