-- ==== Sys2Proof/Machine/Step.lean ====
section
/-! DEFINITION. One step executes one whole instruction, from fetch to PC update
(spec/40_fetch_decode_execute.md rules R100 and R106). -/

namespace Sys2Proof.Machine

/-- One step. A step is enabled exactly when `run = Running` (rule R100); the budget is checked before
the fetch (rule R101). The end of the step, rules R104 and R105, is part of each meaning
(`complete`). -/
def step (s : State) : Host.Outcome State Fault Refusal :=
  match s.run with
  | .haltedOk => .fault .notRunning
  | .haltedFault _ => .fault .notRunning
  | .running =>
    if budgetSpent s then .next (faulted .timeout s)
    else
      match fetch s with
      | .ok i s => exec i s
      | .raised s => .next s

/-- The state with an instruction of the opcode table placed where `step` fetches next: three bytes
at `pc` (the longest instruction), zero from bit `nbits` up. The buffer grows to hold them; nothing
else changes. It stands for the host's loading of a program (rule R272). -/
def State.withFetchWord (s : State) (nbits w : Nat) : State :=
  s.setProg (s.prog.place s.pc (tableBytes nbits w))

end Sys2Proof.Machine
end

