-- ==== Sys2Proof/Machine/Assembler.lean ====
section
/-! DEFINITION. The assembler of spec/30_encoding.md rule R81: one instruction a line, the mnemonic and
then the operands separated by a comma and a space, labels for branch targets, `;` comments. It has
no part in a step. -/

namespace Sys2Proof.Machine

/-- Text, a label's name among it. -/
abbrev Text := List Char

/-- An operand as written: a decimal integer or a label. -/
inductive AsmOperand where
  | number (v : Int)
  | label (name : Text)
deriving DecidableEq, Repr

/-- A line: a label at its start, an instruction, both or neither. -/
structure AsmLine where
  label : Option Text
  body  : Option (Opcode × List AsmOperand)
deriving DecidableEq, Repr

/-! ### From lines to bytes -/

/-- The mnemonics of rule R77. -/
def mnemonicText : Opcode → Text
  | .constZero => "const-zero".toList
  | .pushByte => "push-byte".toList
  | .loadLocal => "load-local".toList
  | .storeLocal => "store-local".toList
  | .pop => "pop".toList
  | .dup => "dup".toList
  | .add => "add".toList
  | .sub => "sub".toList
  | .mul => "mul".toList
  | .div => "div".toList
  | .rem => "rem".toList
  | .shrArith => "shr-arith".toList
  | .incLocal => "inc-local".toList
  | .branchIfZero => "branch-if-zero".toList
  | .goto => "goto".toList
  | .ret => "return".toList
  | .print => "print".toList

/-- Labels with the offsets they stand for. -/
abbrev LabelMap := List (Text × Nat)

/-- A label "stands for the offset of the next instruction's opcode". The lines begin at offset
`at0`. DESIGN CHOICE (rule R81 is silent; log entry 13): a label after the last instruction, which has no
next opcode, stands for the offset at which the program ends, and a label written twice is refused. -/
def labelsOf (at0 : Nat) : List AsmLine → Option LabelMap
  | [] => some []
  | l :: ls =>
    let size := match l.body with
      | none => 0
      | some (op, _) => op.length
    match labelsOf (at0 + size) ls, l.label with
    | none, _ => none
    | some m, none => some m
    | some m, some name => if (m.map Prod.fst).contains name then none else some ((name, at0) :: m)

/-- A branch operand at an instruction whose opcode stands at `p`: the number itself, or
`label_offset - opcode_offset`. -/
def branchOffset (m : LabelMap) (p : Nat) : AsmOperand → Option Int
  | .number v => some v
  | .label name => (m.lookup name).map fun a => (a : Int) - (p : Int)

/-- The instruction a line's body stands for; `none` where the operands are not the opcode's. -/
def buildInstr (m : LabelMap) (p : Nat) (op : Opcode) (args : List AsmOperand) : Option Instr :=
  match op, args with
  | .constZero, [] => some .constZero
  | .pop, [] => some .pop
  | .dup, [] => some .dup
  | .add, [] => some .add
  | .sub, [] => some .sub
  | .mul, [] => some .mul
  | .div, [] => some .div
  | .rem, [] => some .rem
  | .shrArith, [] => some .shrArith
  | .ret, [] => some .ret
  | .print, [] => some .print
  | .pushByte, [.number v] => some (.pushByte v)
  | .loadLocal, [.number n] => if 0 ≤ n then some (.loadLocal n.toNat) else none
  | .storeLocal, [.number n] => if 0 ≤ n then some (.storeLocal n.toNat) else none
  | .incLocal, [.number n, .number d] => if 0 ≤ n then some (.incLocal n.toNat d) else none
  | .branchIfZero, [x] => (branchOffset m p x).map Instr.branchIfZero
  | .goto, [x] => (branchOffset m p x).map Instr.goto
  | _, _ => none

/-- The bytes of a line's body. "The assembler refuses a value outside the ranges"; it does not
refuse an index above 9. -/
def assembleBody (map : OpcodeMap) (m : LabelMap) (p : Nat) (op : Opcode) (args : List AsmOperand) :
    Option (List Byte) :=
  match buildInstr m p op args with
  | none => none
  | some i => if i.wellFormed then some (encode map i) else none

/-- The bytes of lines that begin at offset `p`. -/
def assembleFrom (map : OpcodeMap) (m : LabelMap) (p : Nat) : List AsmLine → Option (List Byte)
  | [] => some []
  | l :: ls =>
    match l.body with
    | none => assembleFrom map m p ls
    | some (op, args) =>
      match assembleBody map m p op args, assembleFrom map m (p + op.length) ls with
      | some bs, some rest => some (bs ++ rest)
      | some _, none => none
      | none, _ => none

/-- The program buffer of a list of lines. -/
def assemble (map : OpcodeMap) (lines : List AsmLine) : Option (List Byte) :=
  match labelsOf 0 lines with
  | none => none
  | some m => assembleFrom map m 0 lines

/-! ### From text to lines -/

/-- The pieces of a text between occurrences of a character. -/
def splitAt (c : Char) : Text → List Text
  | [] => [[]]
  | x :: xs =>
    match splitAt c xs with
    | [] => [[x]]
    | w :: ws => if x = c then [] :: w :: ws else (x :: w) :: ws

/-- The value of a non-empty string of decimal digits. -/
def parseDigits (t : Text) : Option Nat :=
  if t ≠ [] ∧ t.all Char.isDigit then some (t.foldl (fun v c => 10 * v + (c.toNat - 48)) 0) else none

/-- A decimal integer, `-` before a negative one. -/
def parseInt : Text → Option Int
  | '-' :: t => (parseDigits t).map fun n => -(n : Int)
  | t => (parseDigits t).map fun n => (n : Int)

/-- An operand: a decimal integer, otherwise a label. -/
def parseOperand (t : Text) : AsmOperand :=
  match parseInt t with
  | some v => .number v
  | none => .label t

/-- A word that ends in `c`, without it. -/
def endingIn (c : Char) (t : Text) : Option Text :=
  if t.getLast? = some c then some t.dropLast else none

/-- The operands of an instruction, each but the last with its comma. -/
def parseOperands : List Text → Option (List AsmOperand)
  | [] => some []
  | [w] => if (endingIn ',' w).isSome then none else some [parseOperand w]
  | w :: ws =>
    match endingIn ',' w, parseOperands ws with
    | some a, some rest => some (parseOperand a :: rest)
    | some _, none => none
    | none, _ => none

/-- The body of a line, from its words; `none` for a mnemonic rule R77 does not list. -/
def parseBody : List Text → Option (Option (Opcode × List AsmOperand))
  | [] => some none
  | w :: ws =>
    match Opcode.all.find? (fun op => mnemonicText op == w), parseOperands ws with
    | some op, some args => some (some (op, args))
    | some _, none => none
    | none, _ => none

/-- One line of text: a comment runs from `;` to its end, and a first word that ends in `:` is a
label. -/
def parseLine (t : Text) : Option AsmLine :=
  match (splitAt ' ' (t.takeWhile (· ≠ ';'))).filter (· ≠ []) with
  | [] => some { label := none, body := none }
  | w :: ws =>
    match endingIn ':' w with
    | some name => (parseBody ws).map fun b => { label := some name, body := b }
    | none => (parseBody (w :: ws)).map fun b => { label := none, body := b }

/-- The program buffer of an assembler text, or `none` where the assembler refuses it. -/
def assembleText (map : OpcodeMap) (t : Text) : Option (List Byte) :=
  match (splitAt '\n' t).mapM parseLine with
  | none => none
  | some lines => assemble map lines

end Sys2Proof.Machine
end

