-- ==== Sys2Proof/Machine/Interface.lean ====
section
/-! DEFINITION. The block's ports at transaction level (spec/10_state.md rules R32, R33 and R40 to
R45) and the text form of its output (spec/45_output.md rule R222). -/

namespace Sys2Proof.Machine

/-! ### The outputs `halted`, `status` and `fault_kind` (rule R44) -/

/-- The code of a fault kind on the `fault_kind` output (spec/60_exceptions.md rule R230). -/
def FaultKind.code : FaultKind → Nat
  | .stackUnderflow => 1
  | .invalidIndex => 2
  | .divisionByZero => 3
  | .unknownOpcode => 4
  | .truncatedProgram => 5
  | .capacityExceeded => 6
  | .timeout => 7

/-- `halted`. -/
def State.halted (s : State) : Bool :=
  match s.run with
  | .running => false
  | .haltedOk => true
  | .haltedFault _ => true

/-- `status`: 0 after `return`, 1 after any fault, no value while the run goes on (rule R32). -/
def State.status (s : State) : Option Nat :=
  match s.run with
  | .running => none
  | .haltedOk => some 0
  | .haltedFault _ => some 1

/-- `fault_kind`: the code of the fault that ended the run, if one did (rule R33). -/
def State.faultCode (s : State) : Option Nat :=
  match s.run with
  | .running => none
  | .haltedOk => none
  | .haltedFault kind => some kind.code

/-- What a run shows (rule R108): the emitted values and the status, with the fault kind as a
diagnostic. -/
structure Observation where
  out       : List Word
  status    : Option Nat
  faultCode : Option Nat
deriving DecidableEq, Repr

/-- The observation of a state. -/
def State.observation (s : State) : Observation where
  out       := s.out
  status    := s.status
  faultCode := s.faultCode

/-! ### `start` and the program read port -/

/-- `start(prog, PROG_LEN)`, at any time: every state element at its reset value and the buffer bound
(rule R41). The parameters are the implementation's and stay. A program longer than `PROG_MAX` breaks
the precondition and is refused (rule R8; spec/93_implementation_defined.md U12). -/
def start (bytes : List Byte) (s : State) : Host.Outcome State Fault Refusal :=
  if bytes.length ≤ s.params.progMax then .next (State.initial s.params (Memory.load bytes))
  else .refused .programTooLong

/-- The offsets the next step presents on the program read port, in order (rules R42, R101, R102):
none when it reads nothing, the opcode's alone when it is unknown or its immediates cross the end. -/
def portReads (s : State) : List Nat :=
  match s.run with
  | .haltedOk => []
  | .haltedFault _ => []
  | .running =>
    if budgetSpent s then []
    else
      match s.prog.read s.pc with
      | none => []
      | some b0 =>
        match opcodeAt s.params.opcodeMap b0 with
        | none => [s.pc]
        | some op =>
          if s.prog.size < s.pc + op.length then [s.pc]
          else (List.range op.length).map fun k => s.pc + k

/-! ### The output port -/

/-- The `out_event`s raised between two states of one run (rules R43 and R221). -/
def outEvents (before after : State) : List Word := after.out.drop before.out.length

/-- An engine with everything its output port has delivered since power-on, across runs. What is
delivered is the consumer's, so no engine state holds it. -/
structure Session where
  engine    : State
  delivered : List Word
deriving DecidableEq, Repr

/-- One step of the engine; its events are delivered in order (rule R59). -/
def sessionStep (x : Session) : Host.Outcome Session Fault Refusal :=
  match step x.engine with
  | .next s => .next { engine := s, delivered := x.delivered ++ outEvents x.engine s }
  | .fault r => .fault r
  | .refused r => .refused r

/-- A new `start`: "the old run's output events already emitted stay emitted" (rule R41). -/
def sessionStart (bytes : List Byte) (x : Session) : Host.Outcome Session Fault Refusal :=
  match start bytes x.engine with
  | .next s => .next { engine := s, delivered := x.delivered }
  | .fault r => .fault r
  | .refused r => .refused r

/-! ### The text form of the output (rule R222) -/

/-- The decimal digits of `n` in ASCII, at most `fuel` of them, with no leading zero. -/
def decimalDigits : Nat → Nat → List Byte
  | 0, _ => []
  | fuel + 1, n =>
    (if n < 10 then [] else decimalDigits fuel (n / 10)) ++ [BitVec.ofNat 8 (0x30 + n % 10)]

/-- `render(x)`: `-` for a negative value, the digits of `|x|` (at most 10, since `|x| <= 2^31`), and
a newline (rule R222). -/
def render (x : Word) : List Byte :=
  (if x.toInt < 0 then [0x2d] else []) ++ decimalDigits 10 x.toInt.natAbs ++ [0x0a]

/-- The text a consumer of the output port writes for a sequence of events. -/
def renderAll (events : List Word) : List Byte := events.flatMap render

end Sys2Proof.Machine
end

