-- ==== Sys2Proof/Safety.lean ====
section
/-! DEFINITION. The terms claims use: which states are well formed, and what an instruction needs to
execute without a fault. -/

namespace Sys2Proof

/-- The parameters an implementation may have: an injective opcode map (spec/00_scope.md rule R11) and
a pc register that holds every offset (rule R12). -/
structure Params.Valid (p : Params) : Prop where
  opcodeMap : p.opcodeMap.Valid
  pcBits    : p.progMax < 2 ^ p.pcBits

end Sys2Proof

namespace Sys2Proof.Machine

/-- The depth is within `STACK_CAPACITY` (spec/10_state.md rule R27). -/
def withinCapacity (s : State) : Prop :=
  match s.params.stackCapacity with
  | none => True
  | some c => s.stk.length ≤ c

/-- The counter is within `INSTR_BUDGET`, and does not move when there is none (rules R35, R241). -/
def withinBudget (s : State) : Prop :=
  match s.params.instrBudget with
  | none => s.icount = 0
  | some b => s.icount ≤ b

/-- What holds at every start and after every step. -/
structure State.Inv (s : State) : Prop where
  /-- The parameters are ones an implementation may have. -/
  params   : s.params.Valid
  /-- The program buffer is in its canonical form. -/
  prog     : s.prog.wf = true
  /-- `PROG_LEN <= PROG_MAX` (rule R8). -/
  progLen  : s.prog.size ≤ s.params.progMax
  /-- `0 <= pc <= PROG_LEN` (rule R23). -/
  pc       : s.pc ≤ s.prog.size
  /-- The depth is within the capacity (rule R27). -/
  capacity : withinCapacity s
  /-- The counter is within the budget (rule R241). -/
  budget   : withinBudget s

/-- There is room for one more element (rule R110). -/
abbrev hasRoom (s : State) : Prop := s.params.stackCapacity ≠ some s.stk.length

/-- A branch target inside the buffer (rule R203). -/
abbrev targetInside (off : Int) (s : State) : Prop :=
  0 ≤ (s.pc : Int) + off ∧ (s.pc : Int) + off < (s.prog.size : Int)

/-- The two operands of a division that raises nothing: a non-zero divisor, and no `-2^31` divided by
`-1` when `DIV_OVERFLOW_FAULT` is set (rules R155, R156 and R282). -/
abbrev divides (s : State) (a b : Word) : Prop :=
  b ≠ 0 ∧ ¬(s.params.divOverflowFault = true ∧ a.toInt = -2147483648 ∧ b.toInt = -1)

/-- What software must ensure for an instruction to raise no fault of its own (the first four points
and the capacity point of spec/70_reset_and_hazards.md rule R282). -/
def mayExecute (i : Instr) (s : State) : Prop :=
  match i with
  | .constZero => hasRoom s
  | .pushByte _ => hasRoom s
  | .loadLocal n => n ≤ 9 ∧ hasRoom s
  | .storeLocal n => n ≤ 9 ∧ 1 ≤ s.stk.length
  | .pop => 1 ≤ s.stk.length
  | .dup => 1 ≤ s.stk.length ∧ hasRoom s
  | .add => 2 ≤ s.stk.length
  | .sub => 2 ≤ s.stk.length
  | .mul => 2 ≤ s.stk.length
  | .div => ∃ b a rest, s.stk = b :: a :: rest ∧ divides s a b
  | .rem => ∃ b a rest, s.stk = b :: a :: rest ∧ divides s a b
  | .shrArith => 2 ≤ s.stk.length
  | .incLocal n _ => n ≤ 9
  | .branchIfZero off => ∃ v rest, s.stk = v :: rest ∧ (v = 0 → targetInside off s)
  | .goto off => targetInside off s
  | .ret => True
  | .print => 1 ≤ s.stk.length

end Sys2Proof.Machine
end

