-- ==== Sys2Proof/Certificates/Slice0/Obligations.lean ====
section
/-! DEFINITION. The statements for the provers. Rule numbers are those of spec/.

A docstring that says "D<n>" names a decision of spec/92_eei_decisions.md the rule itself rests on.
The operand stack is written with its top first (log entry 1). Statements about the stack, the bank
and the pc after a halt are the rules' own (R107, R231), and no claim about what a run shows (R108). -/

open Sys2Proof Sys2Proof.Machine

namespace Sys2Proof.Claims

/-- The counter after a step that raised no fault (rule R105). -/
def ticked (s : State) : Nat :=
  match s.params.instrBudget with
  | none => s.icount
  | some _ => s.icount + 1

/-- `r` is `i32(v)`: the signed 32-bit integer congruent to `v` modulo `2^32` (rule R13). -/
def wraps (r : Word) (v : Int) : Prop := ∃ k : Int, r.toInt = v + k * 4294967296

/-- `i` halts on a stack too shallow for two pops, with what it popped gone (rules R107, R150). -/
def underflowsBelowTwo (i : Instr) : Prop :=
  ∀ s : State, s.run = .running →
    (s.stk = [] → exec i s = .next { s with run := .haltedFault .stackUnderflow }) ∧
    (∀ t, s.stk = [t] →
      exec i s = .next { s with stk := [], run := .haltedFault .stackUnderflow })

/-- `i` halts on an empty stack with nothing changed. -/
def underflowsOnEmpty (i : Instr) : Prop :=
  ∀ s : State, s.run = .running → s.stk = [] →
    exec i s = .next { s with run := .haltedFault .stackUnderflow }

/-- `i` pops `b` and then `a`, and pushes a word that `result a b` describes. -/
def replacesTopTwo (i : Instr) (result : Word → Word → Word → Prop) : Prop :=
  ∀ (s : State) (a b : Word) (rest : List Word), s.run = .running → withinCapacity s →
    s.stk = b :: a :: rest →
    ∃ r, result a b r ∧
      exec i s = .next { s with stk := r :: rest, pc := s.pc + 1, icount := ticked s }

/-- An opcode of `n` bytes at the pc whose immediates cross the end of the buffer halts the run at
decode (rule R102). -/
def cutAtTheEnd (op : Opcode) (n : Nat) : Prop :=
  ∀ s : State, s.run = .running → s.params.instrBudget ≠ some s.icount →
    s.params.opcodeMap.Valid → s.prog.read s.pc = some (s.params.opcodeMap.byteOf op) →
    s.prog.size < s.pc + n →
    step s = .next { s with run := .haltedFault .truncatedProgram }

/-- The bytes of the buffer from the pc on begin with `bytes`. -/
def standsAtPc (s : State) (bytes : List Byte) : Prop :=
  ∀ k, k < bytes.length → s.prog.read (s.pc + k) = bytes[k]?

/-- A copy of a state with another capacity. -/
def withCapacity (c : Option Nat) (s : State) : State :=
  { s with params := { s.params with stackCapacity := c } }

/-- A copy of a state with another pc width. -/
def withPcBits (n : Nat) (s : State) : State := { s with params := { s.params with pcBits := n } }

/-- The number a string of ASCII digits writes in decimal. -/
def readDecimal (ds : List Byte) : Nat := ds.foldl (fun v d => 10 * v + (d.toNat - 0x30)) 0

/-- The fault kinds the table of rule R230 lists for an instruction's own execution. -/
def faultsListedFor : Instr → List FaultKind
  | .constZero => [.capacityExceeded]
  | .pushByte _ => [.capacityExceeded]
  | .loadLocal _ => [.invalidIndex, .capacityExceeded]
  | .storeLocal _ => [.invalidIndex, .stackUnderflow]
  | .pop => [.stackUnderflow]
  | .dup => [.stackUnderflow, .capacityExceeded]
  | .add => [.stackUnderflow]
  | .sub => [.stackUnderflow]
  | .mul => [.stackUnderflow]
  | .div => [.stackUnderflow, .divisionByZero]
  | .rem => [.stackUnderflow, .divisionByZero]
  | .shrArith => [.stackUnderflow]
  | .incLocal _ _ => [.invalidIndex]
  | .branchIfZero _ => [.stackUnderflow, .truncatedProgram]
  | .goto _ => [.truncatedProgram]
  | .ret => []
  | .print => [.stackUnderflow]

end Sys2Proof.Claims

open Sys2Proof.Claims

/-! ### The instructions, one rule each -/

/-- Rule R130 (the opcode byte is D1's). -/
def Obligations.ConstZeroPushesZero : Prop :=
  encode OpcodeMap.default .constZero = [0x03] ∧
  ∀ s : State, s.run = .running →
    (hasRoom s → exec .constZero s =
      .next { s with stk := 0 :: s.stk, pc := s.pc + 1, icount := ticked s }) ∧
    (s.params.stackCapacity = some s.stk.length → exec .constZero s =
      .next { s with run := .haltedFault .capacityExceeded })

/-- Rule R131 (the opcode byte is D1's). -/
def Obligations.PopDiscardsTop : Prop :=
  encode OpcodeMap.default .pop = [0x57] ∧
  underflowsOnEmpty .pop ∧
  ∀ (s : State) (x : Word) (rest : List Word), s.run = .running → s.stk = x :: rest →
    exec .pop s = .next { s with stk := rest, pc := s.pc + 1, icount := ticked s }

/-- Rule R132 (the opcode byte is D1's), its corner case "`dup` then `pop` leaves the stack as it was"
included. -/
def Obligations.DupDuplicatesTop : Prop :=
  encode OpcodeMap.default .dup = [0x59] ∧
  underflowsOnEmpty .dup ∧
  ∀ (s : State) (x : Word) (rest : List Word), s.run = .running → s.stk = x :: rest →
    (hasRoom s → exec .dup s =
      .next { s with stk := x :: x :: rest, pc := s.pc + 1, icount := ticked s }) ∧
    (s.params.stackCapacity = some s.stk.length → exec .dup s =
      .next { s with run := .haltedFault .capacityExceeded }) ∧
    (hasRoom s → ∃ t u, exec .dup s = .next t ∧ exec .pop t = .next u ∧ u.stk = s.stk)

/-- Rule R133: the byte is read signed, and every value in `[-128, 127]` is pushed as it is. -/
def Obligations.PushBytePushesSignedByte : Prop :=
  (∀ (b1 : Byte) (rest : List Byte),
    decode OpcodeMap.default (0x10 :: b1 :: rest) = .ok (.pushByte b1.toInt, rest) ∧
    -128 ≤ b1.toInt ∧ b1.toInt ≤ 127) ∧
  cutAtTheEnd .pushByte 2 ∧
  ∀ (v : Int) (s : State), (Instr.pushByte v).wellFormed = true → s.run = .running →
    (hasRoom s → ∃ w : Word, w.toInt = v ∧ exec (.pushByte v) s =
      .next { s with stk := w :: s.stk, pc := s.pc + 2, icount := ticked s }) ∧
    (s.params.stackCapacity = some s.stk.length → exec (.pushByte v) s =
      .next { s with run := .haltedFault .capacityExceeded })

/-- Rule R151 (wrapping is D3's). -/
def Obligations.AddWrapsTheSum : Prop :=
  encode OpcodeMap.default .add = [0x60] ∧
  underflowsBelowTwo .add ∧
  replacesTopTwo .add fun a b r => wraps r (a.toInt + b.toInt)

/-- Rule R152: the former top is the subtrahend (the opcode byte is D1's, wrapping is D3's). -/
def Obligations.SubWrapsTheDifference : Prop :=
  encode OpcodeMap.default .sub = [0x64] ∧
  underflowsBelowTwo .sub ∧
  replacesTopTwo .sub fun a b r => wraps r (a.toInt - b.toInt)

/-- Rule R153 (the opcode byte is D1's, wrapping is D3's). -/
def Obligations.MulWrapsTheProduct : Prop :=
  encode OpcodeMap.default .mul = [0x68] ∧
  underflowsBelowTwo .mul ∧
  replacesTopTwo .mul fun a b r => wraps r (a.toInt * b.toInt)

/-- Rule R155, for both values of `DIV_OVERFLOW_FAULT` (D4; the opcode byte is D1's). `a` is the
dividend and `b`, the former top, the divisor. -/
def Obligations.DivTruncatesTowardZero : Prop :=
  encode OpcodeMap.default .div = [0x6c] ∧
  underflowsBelowTwo .div ∧
  ∀ (s : State) (a b : Word) (rest : List Word), s.run = .running → s.stk = b :: a :: rest →
    (b = 0 → exec .div s = .next { s with stk := rest, run := .haltedFault .divisionByZero }) ∧
    (a.toInt = -2147483648 → b.toInt = -1 → s.params.divOverflowFault = true →
      exec .div s = .next { s with stk := rest, run := .haltedFault .divisionByZero }) ∧
    (divides s a b → withinCapacity s →
      ∃ q : Word,
        (a.toInt = -2147483648 → b.toInt = -1 → q.toInt = -2147483648) ∧
        (¬(a.toInt = -2147483648 ∧ b.toInt = -1) → q.toInt = Int.tdiv a.toInt b.toInt) ∧
        exec .div s = .next { s with stk := q :: rest, pc := s.pc + 1, icount := ticked s })

/-- Rule R156, for both values of `DIV_OVERFLOW_FAULT` (D4; the opcode byte is D1's): the remainder has
the dividend's sign and is smaller than the divisor. -/
def Obligations.RemFollowsTruncatingDivision : Prop :=
  encode OpcodeMap.default .rem = [0x70] ∧
  underflowsBelowTwo .rem ∧
  ∀ (s : State) (a b : Word) (rest : List Word), s.run = .running → s.stk = b :: a :: rest →
    (b = 0 → exec .rem s = .next { s with stk := rest, run := .haltedFault .divisionByZero }) ∧
    (a.toInt = -2147483648 → b.toInt = -1 → s.params.divOverflowFault = true →
      exec .rem s = .next { s with stk := rest, run := .haltedFault .divisionByZero }) ∧
    (divides s a b → withinCapacity s →
      ∃ m : Word,
        m.toInt = a.toInt - b.toInt * Int.tdiv a.toInt b.toInt ∧
        (0 < m.toInt → 0 < a.toInt) ∧ (m.toInt < 0 → a.toInt < 0) ∧
        m.toInt.natAbs < b.toInt.natAbs ∧
        exec .rem s = .next { s with stk := m :: rest, pc := s.pc + 1, icount := ticked s })

/-- Rule R157: the amount is the low 5 bits of the former top (D5; the opcode byte is D1's). -/
def Obligations.ShrArithFloorsTheQuotient : Prop :=
  encode OpcodeMap.default .shrArith = [0x7a] ∧
  underflowsBelowTwo .shrArith ∧
  replacesTopTwo .shrArith fun a b r => r.toInt = Int.fdiv a.toInt (2 ^ (b.toNat % 32))

/-- Rule R180 (the opcode byte is D1's): an index above 9 faults whatever the stack holds, and a slot
never written reads 0. -/
def Obligations.LoadLocalPushesTheSlot : Prop :=
  (∀ (b1 : Byte) (rest : List Byte),
    decode OpcodeMap.default (0x15 :: b1 :: rest) = .ok (.loadLocal b1.toNat, rest)) ∧
  cutAtTheEnd .loadLocal 2 ∧
  (∀ n : Fin 10, State.reset.locals[n] = 0) ∧
  ∀ s : State, s.run = .running →
    (∀ n : Fin 10, hasRoom s → exec (.loadLocal n) s =
      .next { s with stk := s.locals[n] :: s.stk, pc := s.pc + 2, icount := ticked s }) ∧
    (∀ n : Fin 10, s.params.stackCapacity = some s.stk.length → exec (.loadLocal n) s =
      .next { s with run := .haltedFault .capacityExceeded }) ∧
    (∀ n : Nat, 9 < n → exec (.loadLocal n) s = .next { s with run := .haltedFault .invalidIndex })

/-- Rule R181 (the opcode byte is D1's), its corner case "storing and then loading slot `n` gives back
`v`" included. -/
def Obligations.StoreLocalWritesTheSlot : Prop :=
  (∀ (b1 : Byte) (rest : List Byte),
    decode OpcodeMap.default (0x36 :: b1 :: rest) = .ok (.storeLocal b1.toNat, rest)) ∧
  cutAtTheEnd .storeLocal 2 ∧
  ∀ s : State, s.run = .running →
    (∀ n : Nat, 9 < n →
      exec (.storeLocal n) s = .next { s with run := .haltedFault .invalidIndex }) ∧
    (∀ n : Fin 10, s.stk = [] →
      exec (.storeLocal n) s = .next { s with run := .haltedFault .stackUnderflow }) ∧
    (∀ (n : Fin 10) (v : Word) (rest : List Word), s.stk = v :: rest →
      ∃ t, exec (.storeLocal n) s = .next t ∧
        t = { s with stk := rest, locals := t.locals, pc := s.pc + 2, icount := ticked s } ∧
        t.locals[n] = v ∧ (∀ k : Fin 10, k ≠ n → t.locals[k] = s.locals[k]) ∧
        (withinCapacity s → ∃ u, exec (.loadLocal n) t = .next u ∧ u.stk = v :: rest))

/-- Rule R182: the delta is read signed (D6) and the sum wraps (D3); the stack is neither read nor
written (the opcode byte is D1's). -/
def Obligations.IncLocalAddsTheDelta : Prop :=
  (∀ (b1 b2 : Byte) (rest : List Byte),
    decode OpcodeMap.default (0x84 :: b1 :: b2 :: rest) = .ok (.incLocal b1.toNat b2.toInt, rest)) ∧
  cutAtTheEnd .incLocal 3 ∧
  ∀ (s : State) (d : Int), s.run = .running →
    (∀ n : Nat, 9 < n →
      exec (.incLocal n d) s = .next { s with run := .haltedFault .invalidIndex }) ∧
    (∀ n : Fin 10, ∃ t, exec (.incLocal n d) s = .next t ∧
      t = { s with locals := t.locals, pc := s.pc + 3, icount := ticked s } ∧
      wraps t.locals[n] (s.locals[n].toInt + d) ∧
      (∀ k : Fin 10, k ≠ n → t.locals[k] = s.locals[k]))

/-- Rule R201 (D1, D2, D9): the value is popped whether or not the branch is taken, and an untaken
branch does not check its target. -/
def Obligations.BranchIfZeroTestsThePoppedValue : Prop :=
  (∀ (b1 b2 : Byte) (rest : List Byte),
    decode OpcodeMap.default (0x99 :: b1 :: b2 :: rest) =
      .ok (.branchIfZero (b1 ++ b2).toInt, rest)) ∧
  cutAtTheEnd .branchIfZero 3 ∧
  (∀ off, underflowsOnEmpty (.branchIfZero off)) ∧
  ∀ (s : State) (off : Int) (v : Word) (rest : List Word), s.run = .running → s.stk = v :: rest →
    (v ≠ 0 → exec (.branchIfZero off) s =
      .next { s with stk := rest, pc := s.pc + 3, icount := ticked s }) ∧
    (v = 0 → ∀ target : Nat, (target : Int) = (s.pc : Int) + off → target < s.prog.size →
      exec (.branchIfZero off) s =
        .next { s with stk := rest, pc := target, icount := ticked s }) ∧
    (v = 0 → ((s.pc : Int) + off < 0 ∨ (s.prog.size : Int) ≤ (s.pc : Int) + off) →
      exec (.branchIfZero off) s =
        .next { s with stk := rest, run := .haltedFault .truncatedProgram })

/-- Rule R202 (D1, D2, D9). -/
def Obligations.GotoJumpsRelativeToItsOpcode : Prop :=
  (∀ (b1 b2 : Byte) (rest : List Byte),
    decode OpcodeMap.default (0xa7 :: b1 :: b2 :: rest) = .ok (.goto (b1 ++ b2).toInt, rest)) ∧
  cutAtTheEnd .goto 3 ∧
  ∀ (s : State) (off : Int), s.run = .running →
    (∀ target : Nat, (target : Int) = (s.pc : Int) + off → target < s.prog.size →
      exec (.goto off) s = .next { s with pc := target, icount := ticked s }) ∧
    (((s.pc : Int) + off < 0 ∨ (s.prog.size : Int) ≤ (s.pc : Int) + off) →
      exec (.goto off) s = .next { s with run := .haltedFault .truncatedProgram })

/-- Rule R205: the pc stays (D23), and nothing but the run state and the counter changes. -/
def Obligations.ReturnHaltsWithStatusZero : Prop :=
  encode OpcodeMap.default .ret = [0xb1] ∧
  ∀ s : State, s.run = .running →
    exec .ret s = .next { s with run := .haltedOk, icount := ticked s } ∧
      ∀ t, exec .ret s = .next t → t.status = some 0

/-- Rule R220: `print` peeks, does not pop. -/
def Obligations.PrintEmitsTopWithoutPopping : Prop :=
  encode OpcodeMap.default .print = [0xbb] ∧
  underflowsOnEmpty .print ∧
  ∀ (s : State) (x : Word) (rest : List Word), s.run = .running → s.stk = x :: rest →
    exec .print s = .next { s with out := s.out ++ [x], pc := s.pc + 1, icount := ticked s }

/-! ### Encoding -/

/-- Decode and encode agree: every operand at every value its field admits, under every injective
opcode map. -/
def Obligations.DecodingAnEncodedInstructionGivesItBack : Prop :=
  ∀ (m : OpcodeMap) (i : Instr) (rest : List Byte), m.Valid → i.wellFormed = true →
    decode m (encode m i ++ rest) = .ok (i, rest)

/-- Each byte string has one meaning: what decodes is exactly the encoding of a well-formed
instruction. -/
def Obligations.DecodedBytesAreTheEncoding : Prop :=
  ∀ (m : OpcodeMap) (bytes rest : List Byte) (i : Instr), decode m bytes = .ok (i, rest) →
    bytes = encode m i ++ rest ∧ i.wellFormed = true

/-- The 17 rows of the table of rule R77 under the default map (thirteen of the bytes are D1's). -/
def Obligations.DefaultOpcodeTable : Prop :=
  Opcode.all.map (fun op => (OpcodeMap.default.byteOf op, op, op.format, op.length)) =
    [(0x03, .constZero, .N, 1), (0x10, .pushByte, .B, 2), (0x15, .loadLocal, .X, 2),
     (0x36, .storeLocal, .X, 2), (0x57, .pop, .N, 1), (0x59, .dup, .N, 1), (0x60, .add, .N, 1),
     (0x64, .sub, .N, 1), (0x68, .mul, .N, 1), (0x6c, .div, .N, 1), (0x70, .rem, .N, 1),
     (0x7a, .shrArith, .N, 1), (0x84, .incLocal, .XD, 3), (0x99, .branchIfZero, .O, 3),
     (0xa7, .goto, .O, 3), (0xb1, .ret, .N, 1), (0xbb, .print, .N, 1)] ∧
  Opcode.all.map mnemonicText = ["const-zero".toList, "push-byte".toList, "load-local".toList,
    "store-local".toList, "pop".toList, "dup".toList, "add".toList, "sub".toList, "mul".toList,
    "div".toList, "rem".toList, "shr-arith".toList, "inc-local".toList, "branch-if-zero".toList,
    "goto".toList, "return".toList, "print".toList]

/-- The 239 illegal bytes of rule R78 (under D1's map): fetching one raises `UnknownOpcode` with the
pc left at it, and no byte after it is read. -/
def Obligations.UnassignedBytesAreUnknownOpcodes : Prop :=
  (∀ b : Byte, opcodeAt OpcodeMap.default b = none ↔
    b ∉ [0x03, 0x10, 0x15, 0x36, 0x57, 0x59, 0x60, 0x64, 0x68, 0x6c, 0x70, 0x7a, 0x84, 0x99, 0xa7,
      0xb1, 0xbb]) ∧
  ((List.range 256).filter fun n =>
    (opcodeAt OpcodeMap.default (BitVec.ofNat 8 n)).isNone).length = 239 ∧
  ∀ (s : State) (b : Byte), s.run = .running → s.params.instrBudget ≠ some s.icount →
    s.params.opcodeMap = OpcodeMap.default → s.prog.read s.pc = some b →
    opcodeAt OpcodeMap.default b = none →
    step s = .next { s with run := .haltedFault .unknownOpcode } ∧ portReads s = [s.pc]

/-- A sanity check of the decoder on words written out from rules R71, R77 and R83 (D1's bytes). -/
def Obligations.SampleWordsDecodeAsWritten : Prop :=
  decode OpcodeMap.default [0x10, 0x05] = .ok (.pushByte 5, []) ∧
  decode OpcodeMap.default [0x10, 0x80, 0x60] = .ok (.pushByte (-128), [0x60]) ∧
  decode OpcodeMap.default [0x60] = .ok (.add, []) ∧
  decode OpcodeMap.default [0x36, 0xff] = .ok (.storeLocal 255, []) ∧
  decode OpcodeMap.default [0x84, 0x00, 0xfe] = .ok (.incLocal 0 (-2), []) ∧
  decode OpcodeMap.default [0x99, 0x00, 0x06] = .ok (.branchIfZero 6, []) ∧
  decode OpcodeMap.default [0xa7, 0xff, 0xf4] = .ok (.goto (-12), []) ∧
  decode OpcodeMap.default [0xb1] = .ok (.ret, []) ∧
  decode OpcodeMap.default [0xbb] = .ok (.print, [])

/-- The assembler of rule R81 (D22; what it does with a label is its own sentence "A label operand
encodes `off = label_offset - opcode_offset`"): a `goto` to a label is refused out of range and
otherwise jumps to the label's offset. -/
def Obligations.AssembledGotoReachesItsLabel : Prop :=
  ∀ (map : OpcodeMap) (labels : LabelMap) (p a : Nat) (name : Text),
    map.Valid → labels.lookup name = some a →
    (((a : Int) - p < -32768 ∨ 32767 < (a : Int) - p) →
      assembleBody map labels p .goto [.label name] = none) ∧
    (-32768 ≤ (a : Int) - p → (a : Int) - p ≤ 32767 →
      ∃ bytes i, assembleBody map labels p .goto [.label name] = some bytes ∧
        decode map bytes = .ok (i, []) ∧
        ∀ s : State, s.run = .running → s.pc = p → a < s.prog.size →
          exec i s = .next { s with pc := a, icount := ticked s })

/-! ### The step -/

/-- When the bytes at the pc decode to an instruction, the step is that instruction's execution. The
step adds nothing around it: the pc and the counter move inside `exec`. -/
def Obligations.StepRunsTheDecodedInstruction : Prop :=
  ∀ (s : State) (i : Instr) (rest : List Byte), s.run = .running →
    s.params.instrBudget ≠ some s.icount →
    decode s.params.opcodeMap (s.prog.window s.pc) = .ok (i, rest) → step s = exec i s

/-- The same from the buffer's bytes alone: an encoded instruction standing at the pc is executed. -/
def Obligations.StepExecutesTheInstructionStandingAtThePc : Prop :=
  ∀ (s : State) (i : Instr), s.run = .running → s.params.instrBudget ≠ some s.icount →
    s.params.opcodeMap.Valid → i.wellFormed = true →
    standsAtPc s (encode s.params.opcodeMap i) → step s = exec i s

/-- Rule R100: a step is enabled exactly when the run is running, and never again after a halt. -/
def Obligations.StepIsEnabledExactlyWhenRunning : Prop :=
  (∀ s : State, (∃ t, step s = .next t) ↔ s.run = .running) ∧
  (∀ s : State, s.run ≠ .running → step s = .fault .notRunning)

/-- Rule R101 (the budget check is D15's): the budget, then the bound, then the opcode byte is read. -/
def Obligations.FetchChecksBudgetThenBound : Prop :=
  ∀ s : State, s.run = .running →
    (s.params.instrBudget = some s.icount →
      step s = .next { s with run := .haltedFault .timeout } ∧ portReads s = []) ∧
    (s.params.instrBudget ≠ some s.icount → s.prog.size ≤ s.pc →
      step s = .next { s with run := .haltedFault .truncatedProgram } ∧ portReads s = []) ∧
    (s.params.instrBudget ≠ some s.icount → s.pc < s.prog.size →
      ∃ op, s.prog.read s.pc = some op ∧ (portReads s).head? = some s.pc)

/-- Rule R102 (checking the whole instruction first is D10's): an unknown opcode, immediates past the
end, and otherwise an instruction assembled from exactly the `n` bytes read. -/
def Obligations.DecodeChecksOpcodeThenImmediates : Prop :=
  ∀ (s : State) (b : Byte), s.run = .running → s.params.instrBudget ≠ some s.icount →
    s.params.opcodeMap.Valid → s.prog.read s.pc = some b →
    ((∀ op, s.params.opcodeMap.byteOf op ≠ b) →
      step s = .next { s with run := .haltedFault .unknownOpcode } ∧ portReads s = [s.pc]) ∧
    (∀ op, s.params.opcodeMap.byteOf op = b → s.prog.size < s.pc + op.length →
      step s = .next { s with run := .haltedFault .truncatedProgram } ∧ portReads s = [s.pc]) ∧
    (∀ op, s.params.opcodeMap.byteOf op = b → s.pc + op.length ≤ s.prog.size →
      portReads s = (List.range op.length).map (fun k => s.pc + k) ∧
      ∃ i : Instr, i.opcode = op ∧ i.wellFormed = true ∧
        standsAtPc s (encode s.params.opcodeMap i) ∧ step s = exec i s)

/-- Rule R104: the pc advances by the bytes consumed unless a taken branch overrides it, and keeps the
offset of the current opcode after a fault or `return`. -/
def Obligations.PcAdvancesByTheBytesConsumed : Prop :=
  ∀ (i : Instr) (s t : State), s.run = .running → exec i s = .next t →
    (t.run ≠ .running → t.pc = s.pc) ∧
    (t.run = .running →
      t.pc = s.pc + (encode s.params.opcodeMap i).length ∨
      ∃ off, (i = .branchIfZero off ∨ i = .goto off) ∧ (t.pc : Int) = (s.pc : Int) + off)

/-- Rule R105 (D15): with a budget, every instruction that raises no fault is counted once. -/
def Obligations.CounterCountsCompletedInstructions : Prop :=
  ∀ (i : Instr) (s t : State), s.run = .running → exec i s = .next t →
    ((∃ kind, t.run = .haltedFault kind) → t.icount = s.icount) ∧
    ((∀ kind, t.run ≠ .haltedFault kind) →
      (s.params.instrBudget = none → t.icount = s.icount) ∧
      (∀ b, s.params.instrBudget = some b → t.icount = s.icount + 1))

/-- A fault leaves the pc at the instruction's opcode, the bank, the output and the counter as they
were, and the stack with at most the operands already popped missing (rules R107, R231 and R235;
D11). -/
def Obligations.FaultFreezesEverythingButPops : Prop :=
  ∀ (s t : State) (kind : FaultKind), s.run = .running → step s = .next t →
    t.run = .haltedFault kind →
    t = { s with stk := t.stk, run := .haltedFault kind } ∧
    ∃ popped, popped.length ≤ 2 ∧ s.stk = popped ++ t.stk

/-- An instruction raises only the kinds the table of rule R230 lists for it, in every state whose
stack is within its capacity (an invariant every step keeps). -/
def Obligations.InstructionsRaiseOnlyTheirListedFaults : Prop :=
  ∀ (i : Instr) (s t : State) (kind : FaultKind), s.run = .running → withinCapacity s →
    exec i s = .next t → t.run = .haltedFault kind → kind ∈ faultsListedFor i

/-- The instructions' own order in rule R234 (D10), where two faults apply at once: the index before the
stack, the peek before the push, the pops before the divisor, the pop before the target. -/
def Obligations.InstructionFaultsFollowTheirOrder : Prop :=
  ∀ s : State, s.run = .running →
    (∀ n, 9 < n → s.stk = [] →
      exec (.storeLocal n) s = .next { s with run := .haltedFault .invalidIndex }) ∧
    (∀ n, 9 < n → s.params.stackCapacity = some s.stk.length →
      exec (.loadLocal n) s = .next { s with run := .haltedFault .invalidIndex }) ∧
    (s.stk = [] → s.params.stackCapacity = some 0 →
      exec .dup s = .next { s with run := .haltedFault .stackUnderflow }) ∧
    (s.stk = [0] → ∀ i, i = .div ∨ i = .rem →
      exec i s = .next { s with stk := [], run := .haltedFault .stackUnderflow }) ∧
    (∀ off, s.stk = [] → ¬targetInside off s →
      exec (.branchIfZero off) s = .next { s with run := .haltedFault .stackUnderflow })

/-- The points of rule R282 that concern one instruction are exactly what it needs to raise no fault. -/
def Obligations.InstructionRunsCleanExactlyUnderItsConditions : Prop :=
  ∀ (i : Instr) (s : State), s.run = .running → withinCapacity s →
    (mayExecute i s ↔ ∃ t, exec i s = .next t ∧ ∀ kind, t.run ≠ .haltedFault kind)

/-- `return` is the only way to a status of 0 (rule R206). That no step follows it is written with the
model's name for a state without a step, `notRunning` (log entry 6). -/
def Obligations.OnlyReturnGivesStatusZero : Prop :=
  ∀ s t : State, s.run = .running → step s = .next t →
    (t.run = .haltedOk ↔
      s.params.instrBudget ≠ some s.icount ∧
      ∃ rest, decode s.params.opcodeMap (s.prog.window s.pc) = .ok (.ret, rest)) ∧
    (t.run = .haltedOk ↔ t.status = some 0) ∧
    (t.run = .haltedOk → step t = .fault .notRunning)

/-- Rule R241 (D15): a step at the budget raises `Timeout` before it fetches, a run with a budget of
`b` halts within the instructions it has left (one more step raises the timeout), and with no budget
`Timeout` never occurs. -/
def Obligations.BudgetedRunHalts : Prop :=
  (∀ s : State, s.run = .running → s.params.instrBudget = some s.icount →
    step s = .next { s with run := .haltedFault .timeout } ∧ portReads s = []) ∧
  (∀ (s : State) (b : Nat), s.run = .running → s.params.instrBudget = some b → s.icount ≤ b →
    ∃ k t, k ≤ b - s.icount + 1 ∧ Host.Core.run core k s = .next t ∧ t.run ≠ .running ∧
      t.icount ≤ b) ∧
  (∀ s t : State, s.run = .running → s.params.instrBudget = none → step s = .next t →
    t.run ≠ .haltedFault .timeout)

/-- Without a budget a `goto` with offset 0 is a loop with no exit: the state after any number of steps
is the state before (rules R109 and R202). -/
def Obligations.GotoItselfNeverHalts : Prop :=
  ∀ (s : State) (k : Nat), s.run = .running → s.params.instrBudget = none →
    s.params.opcodeMap.Valid → standsAtPc s (encode s.params.opcodeMap (.goto 0)) →
    Host.Core.run core k s = .next s

/-! ### Frames and isolation -/

/-- No instruction stores to memory: every program byte reads as before, and the parameters stay
(rules R21 and R51). -/
def Obligations.InstructionsLeaveEveryProgramByte : Prop :=
  ∀ (i : Instr) (s t : State), exec i s = .next t →
    t.params = s.params ∧ t.prog.size = s.prog.size ∧ ∀ a, t.prog.read a = s.prog.read a

/-- Rule R221, its sentence "`print` is the only instruction that emits": any other leaves `out`, and
`print` appends the top of the stack. -/
def Obligations.OnlyPrintExtendsTheOutput : Prop :=
  ∀ (i : Instr) (s t : State), exec i s = .next t →
    (i ≠ .print → t.out = s.out) ∧
    (i = .print → s.stk = [] → t.out = s.out) ∧
    (i = .print → ∀ x rest, s.stk = x :: rest → t.out = s.out ++ [x] ∧ outEvents s t = [x])

/-- A slot changes only by `store-local` or `inc-local` on that slot (rule R25). -/
def Obligations.SlotsChangeOnlyByTheirOwnStores : Prop :=
  ∀ (i : Instr) (s t : State) (k : Fin 10), exec i s = .next t → t.locals[k] ≠ s.locals[k] →
    i = .storeLocal k ∨ ∃ d, i = .incLocal k d

/-- "No other instruction reaches the bank" (rule R25): any other does the same whatever the slots
hold. -/
def Obligations.OtherInstructionsNeverReadTheBank : Prop :=
  ∀ (i : Instr) (s t : State) (bank : Vector Word 10),
    (∀ n, i ≠ .loadLocal n) → (∀ n, i ≠ .storeLocal n) → (∀ n d, i ≠ .incLocal n d) →
    exec i s = .next t →
    t.locals = s.locals ∧ exec i { s with locals := bank } = .next { t with locals := bank }

/-- Only the top element and the one below it are read or written (rule R27): with an unbounded stack,
what lies below what an instruction popped neither changes nor matters. -/
def Obligations.DeepStackIsNeitherReadNorWritten : Prop :=
  ∀ (i : Instr) (s t : State) (deep : List Word), s.params.stackCapacity = none →
    exec i s = .next t → t.run ≠ .haltedFault .stackUnderflow →
    exec i { s with stk := s.stk ++ deep } = .next { t with stk := t.stk ++ deep }

/-- A run never changes the program buffer or the parameters and only ever extends the output (rules
R21, R34 and R51). -/
def Obligations.RunsKeepTheProgramAndExtendTheOutput : Prop :=
  ∀ (k : Nat) (s t : State), Host.Core.run core k s = .next t →
    t.prog = s.prog ∧ t.params = s.params ∧ ∃ events, t.out = s.out ++ events

/-- `PC_BITS` "is never observable" (rule R12): two states that differ in it alone step alike. -/
def Obligations.PcWidthIsNeverObservable : Prop :=
  ∀ (s : State) (n : Nat),
    (∀ t, step s = .next t → step (withPcBits n s) = .next (withPcBits n t)) ∧
    (∀ r, step s = .fault r → step (withPcBits n s) = .fault r)

/-- A bounded stack refines the unbounded one (rules R7 and R110): as long as a run has not ended in
`CapacityExceeded`, the unbounded engine does the same. -/
def Obligations.BoundedStackRefinesUnbounded : Prop :=
  ∀ (k c : Nat) (s t : State), s.params.stackCapacity = some c → s.stk.length ≤ c →
    Host.Core.run core k s = .next t → t.run ≠ .haltedFault .capacityExceeded →
    Host.Core.run core k (withCapacity none s) = .next (withCapacity none t)

/-! ### Invariant, reset and start -/

/-- Every step keeps the invariant: a legal opcode map and pc width, the buffer canonical and within
`PROG_MAX`, the pc within `[0, PROG_LEN]`, the depth within the capacity, the counter within the
budget (rules R8, R11, R12, R23, R27 and R241). -/
def Obligations.StepKeepsTheInvariant : Prop :=
  ∀ s t : State, s.Inv → step s = .next t → t.Inv

/-- The invariant holds at reset. -/
def Obligations.ResetMeetsTheInvariant : Prop := State.reset.Inv

/-- The invariant holds after every start of an engine with legal parameters. -/
def Obligations.StartMeetsTheInvariant : Prop :=
  ∀ (bytes : List Byte) (s t : State), s.params.Valid → start bytes s = .next t → t.Inv

/-- The pc of a well-formed state fits the `PC_BITS` register (rule R12). -/
def Obligations.PcFitsItsRegister : Prop :=
  ∀ s : State, s.Inv → s.pc < 2 ^ s.params.pcBits

/-- Rule R38: the start state of every element. -/
def Obligations.ResetValues : Prop :=
  State.reset.pc = 0 ∧ State.reset.stk = [] ∧ (∀ k : Fin 10, State.reset.locals[k] = 0) ∧
  State.reset.run = .running ∧ State.reset.status = none ∧ State.reset.faultCode = none ∧
  State.reset.out = [] ∧ State.reset.icount = 0

/-- `start`, at any time, puts every element at its reset value and binds the buffer; events already
delivered stay delivered (rule R41, D21). That it keeps the parameters and refuses a program longer than
`PROG_MAX` by the name `programTooLong` is the model's choice (log entry 9; the spec's treatment is U12 of
spec/93_implementation_defined.md). -/
def Obligations.StartResetsEverythingAndBindsTheProgram : Prop :=
  ∀ (bytes : List Byte) (x : Session),
    (bytes.length ≤ x.engine.params.progMax →
      ∃ y, sessionStart bytes x = .next y ∧ y.delivered = x.delivered ∧
        y.engine.pc = 0 ∧ y.engine.stk = [] ∧ (∀ k : Fin 10, y.engine.locals[k] = 0) ∧
        y.engine.run = .running ∧ y.engine.out = [] ∧ y.engine.icount = 0 ∧
        y.engine.params = x.engine.params ∧ y.engine.prog.size = bytes.length ∧
        ∀ a, y.engine.prog.read a = bytes[a]?) ∧
    (x.engine.params.progMax < bytes.length → sessionStart bytes x = .refused .programTooLong)

/-- Rule R274 (D12): an empty buffer is accepted, and the first step raises `TruncatedProgram` (a
budget of 0 comes first, rule R101). -/
def Obligations.EmptyProgramTruncatesAtOnce : Prop :=
  ∀ s : State, s.params.instrBudget ≠ some 0 →
    ∃ t, start [] s = .next t ∧ t.prog.size = 0 ∧
      step t = .next { t with run := .haltedFault .truncatedProgram }

/-! ### Ports -/

/-- Rules R32, R33 and R44: the three outputs as functions of the run state, with the codes of the
table of rule R230 (D14). -/
def Obligations.OutputsFollowTheRunState : Prop :=
  ∀ s : State,
    (s.halted = true ↔ s.run ≠ .running) ∧
    (s.run = .running → s.status = none ∧ s.faultCode = none) ∧
    (s.run = .haltedOk → s.status = some 0 ∧ s.faultCode = none) ∧
    (∀ kind, s.run = .haltedFault kind → s.status = some 1 ∧ s.faultCode = some (
      match kind with
      | .stackUnderflow => 1
      | .invalidIndex => 2
      | .divisionByZero => 3
      | .unknownOpcode => 4
      | .truncatedProgram => 5
      | .capacityExceeded => 6
      | .timeout => 7))

/-- Rule R42: the port answers the byte the program was loaded with, the engine never presents an
offset outside `[0, PROG_LEN)`, and a step changes no answer. -/
def Obligations.PortReadsStayInsideTheProgram : Prop :=
  (∀ (bytes : List Byte) (s t : State), start bytes s = .next t →
    ∀ a, t.prog.read a = bytes[a]?) ∧
  (∀ (s : State) (a : Nat), a ∈ portReads s → a < s.prog.size ∧ ∃ b, s.prog.read a = some b) ∧
  (∀ s t : State, step s = .next t → ∀ a, t.prog.read a = s.prog.read a)

/-- The output port delivers one event for each executed `print`, in program order, and never withdraws
one (rules R43 and R59). -/
def Obligations.EventsAreDeliveredInOrder : Prop :=
  ∀ x y : Session, sessionStep x = .next y →
    ∃ events, events.length ≤ 1 ∧ y.delivered = x.delivered ++ events ∧
      y.engine.out = x.engine.out ++ events

/-- The text form of rule R222 (D13): an optional `-`, the decimal digits of the magnitude with no
leading zero, and a newline. -/
def Obligations.RenderedTextIsDecimal : Prop :=
  ∀ x : Word, ∃ digits : List Byte,
    render x = (if x.toInt < 0 then [0x2d] else []) ++ digits ++ [0x0a] ∧
    (∀ d ∈ digits, 0x30 ≤ d.toNat ∧ d.toNat ≤ 0x39) ∧
    readDecimal digits = x.toInt.natAbs ∧
    digits ≠ [] ∧ (digits.head? = some 0x30 → digits = [0x30])

/-! ### Arithmetic -/

/-- `i32(v)` is the unique 32-bit value congruent to `v` (rule R13). -/
def Obligations.WrappedValueIsUnique : Prop :=
  ∀ (v : Int) (r : Word), wraps r v ↔ r = i32 v

/-- "The law `s = t * (s div t) + (s rem t)` holds for every `t != 0` when both results are wrapped"
(an inference rule R156 marks as derived), the overflowing pair included. -/
def Obligations.DivisionLaw : Prop :=
  ∀ a b : Word, b ≠ 0 → ∃ q m, aluDiv false a b = some q ∧ aluRem false a b = some m ∧
    a = b * q + m
end

