-- ==== Sys2Proof/Laws/Decode.lean ====
section
/-! SUPPORT. Lemmas about the opcode map, the operand fields and the decoder. -/

namespace Sys2Proof

/-! ### Opcode map -/

theorem Opcode.mem_all (op : Opcode) : op ∈ Opcode.all := by cases op <;> decide

/-- The opcode a byte names has that byte. -/
theorem byteOf_of_opcodeAt {m : OpcodeMap} {b : Byte} {op : Opcode} (h : opcodeAt m b = some op) :
    m.byteOf op = b := by
  have := List.find?_some h
  simpa using this

/-- A byte that names no opcode is no opcode's byte. -/
theorem opcodeAt_eq_none_iff {m : OpcodeMap} {b : Byte} :
    opcodeAt m b = none ↔ ∀ op, m.byteOf op ≠ b := by
  simp [opcodeAt, Opcode.mem_all]

theorem OpcodeMap.Valid.injective {m : OpcodeMap} (h : m.Valid) {x y : Opcode}
    (e : m.byteOf x = m.byteOf y) : x = y :=
  List.inj_on_of_nodup_map h (Opcode.mem_all x) (Opcode.mem_all y) e

/-- Under an injective map an opcode's byte names it. -/
theorem opcodeAt_byteOf {m : OpcodeMap} (h : m.Valid) (op : Opcode) :
    opcodeAt m (m.byteOf op) = some op := by
  cases hf : opcodeAt m (m.byteOf op) with
  | none => exact absurd rfl (opcodeAt_eq_none_iff.mp hf op)
  | some x => rw [h.injective (byteOf_of_opcodeAt hf)]

theorem OpcodeMap.default_valid : OpcodeMap.default.Valid := by decide

/-! ### Operand fields -/

theorem sext8_byteOfInt {v : Int} (h : fitsSignedByte v = true) : sext8 (byteOfInt v) = v := by
  simp only [fitsSignedByte, Bool.and_eq_true, decide_eq_true_eq] at h
  rw [sext8, byteOfInt, BitVec.toInt_ofInt, Int.bmod_eq_of_le] <;> omega

theorem byteOfInt_sext8 (b : Byte) : byteOfInt (sext8 b) = b := BitVec.ofInt_toInt

theorem fitsSignedByte_sext8 (b : Byte) : fitsSignedByte (sext8 b) = true := by
  have h1 := BitVec.le_toInt b
  have h2 := BitVec.toInt_lt (x := b)
  simp only [fitsSignedByte, Bool.and_eq_true, decide_eq_true_eq]
  unfold sext8
  omega

theorem zext8_byteOfNat {n : Nat} (h : fitsIndexByte n = true) : zext8 (byteOfNat n) = n := by
  simp only [fitsIndexByte, decide_eq_true_eq] at h
  rw [zext8, byteOfNat, BitVec.toNat_ofNat, Nat.mod_eq_of_lt]
  omega

theorem byteOfNat_zext8 (b : Byte) : byteOfNat (zext8 b) = b := by
  simp [byteOfNat, zext8]

theorem fitsIndexByte_zext8 (b : Byte) : fitsIndexByte (zext8 b) = true := by
  have := b.isLt
  simp only [fitsIndexByte, decide_eq_true_eq]
  unfold zext8
  omega

/-- The two bytes of an offset, joined high byte first, are its 16-bit pattern. -/
theorem offset_bytes_append (off : Int) : offsetHigh off ++ offsetLow off = BitVec.ofInt 16 off := by
  ext i hi
  simp only [offsetHigh, offsetLow, BitVec.getElem_append, BitVec.getElem_extractLsb']
  split
  · simp [BitVec.getLsbD_eq_getElem hi]
  · rw [show 8 + (i - 8) = i by omega, BitVec.getLsbD_eq_getElem hi]

theorem sext16_offset {off : Int} (h : fitsOffset off = true) :
    sext16 (offsetHigh off) (offsetLow off) = off := by
  simp only [fitsOffset, Bool.and_eq_true, decide_eq_true_eq] at h
  rw [sext16, offset_bytes_append, BitVec.toInt_ofInt, Int.bmod_eq_of_le] <;> omega

theorem offsetHigh_sext16 (b1 b2 : Byte) : offsetHigh (sext16 b1 b2) = b1 := by
  ext i hi
  simp only [offsetHigh, sext16, BitVec.ofInt_toInt, BitVec.getElem_extractLsb', BitVec.getLsbD_append]
  simp [BitVec.getLsbD_eq_getElem hi]

theorem offsetLow_sext16 (b1 b2 : Byte) : offsetLow (sext16 b1 b2) = b2 := by
  ext i hi
  simp only [offsetLow, sext16, BitVec.ofInt_toInt, BitVec.getElem_extractLsb', BitVec.getLsbD_append]
  simp [hi]

theorem fitsOffset_sext16 (b1 b2 : Byte) : fitsOffset (sext16 b1 b2) = true := by
  have h1 := BitVec.le_toInt (b1 ++ b2)
  have h2 := BitVec.toInt_lt (x := b1 ++ b2)
  simp only [fitsOffset, Bool.and_eq_true, decide_eq_true_eq]
  unfold sext16
  omega

/-! ### The decoder -/

/-- What follows a known opcode is read by `decodeOperands`. -/
theorem decode_cons {m : OpcodeMap} {b : Byte} {op : Opcode} (h : opcodeAt m b = some op)
    (rest : List Byte) : decode m (b :: rest) = decodeOperands op rest := by
  simp [decode, h]

theorem decode_of_unknown {m : OpcodeMap} {b : Byte} (h : opcodeAt m b = none) (rest : List Byte) :
    decode m (b :: rest) = .error (.unknownOpcode b) := by
  simp [decode, h]

/-- The operands of an opcode decode exactly when its immediate bytes are there, to an instruction of
that opcode; the bytes it consumed are its operand bytes. -/
theorem decodeOperands_cases (op : Opcode) (rest : List Byte) :
    (∃ i r, decodeOperands op rest = .ok (i, r) ∧ i.opcode = op ∧ i.wellFormed = true ∧
      rest = operandBytes i ++ r ∧ rest.length + 1 = op.length + r.length) ∨
    (decodeOperands op rest = .error (.truncated op) ∧ rest.length + 1 < op.length) := by
  cases op <;>
    rcases rest with _ | ⟨b1, _ | ⟨b2, r⟩⟩ <;>
    simp [decodeOperands, readOne, readTwo, Opcode.length, Opcode.format, Format.length, Instr.opcode,
      Instr.wellFormed, operandBytes, byteOfInt_sext8, byteOfNat_zext8, offsetHigh_sext16,
      offsetLow_sext16, fitsSignedByte_sext8, fitsIndexByte_zext8, fitsOffset_sext16] <;>
    omega

/-- The immediate bytes of an instruction are one fewer than its length. -/
theorem operandBytes_length (i : Instr) : (operandBytes i).length + 1 = i.length := by
  cases i <;> rfl

theorem encode_length (m : OpcodeMap) (i : Instr) : (encode m i).length = i.length := by
  simp [encode, operandBytes_length]

/-- An instruction is one to three bytes long. -/
theorem length_bounds (op : Opcode) : 1 ≤ op.length ∧ op.length ≤ maxLength := by
  cases op <;> decide

end Sys2Proof
end

