-- ==== Sys2Proof/Laws/Memory.lean ====
section
/-! SUPPORT. Lemmas about the program buffer: what a read gives after a load or a write, and that every
operation keeps the canonical form. -/

namespace Sys2Proof.Machine

/-! ### Reading -/

theorem Memory.read_eq_none_iff {m : Memory} {a : Nat} : m.read a = none ↔ m.size ≤ a := by
  simp [Memory.read]

theorem Memory.read_of_lt {m : Memory} {a : Nat} (h : a < m.size) :
    m.read a = some (lookupCell m.cells a) := by
  simp [Memory.read, h]

theorem Memory.lt_of_read {m : Memory} {a : Nat} {b : Byte} (h : m.read a = some b) : a < m.size := by
  by_contra hc
  simp [Memory.read, hc] at h

/-- The window is the listed reads, as far as the buffer reaches. -/
theorem Memory.window_eq (m : Memory) (a : Nat) :
    m.window a = (m.read a).toList ++ (m.read (a + 1)).toList ++ (m.read (a + 2)).toList := by
  simp only [Memory.window, maxLength, show List.range 3 = [0, 1, 2] from rfl]
  cases h0 : m.read a <;> cases h1 : m.read (a + 1) <;> cases h2 : m.read (a + 2) <;>
    simp [h0, h1, h2]

theorem Memory.window_of_end {m : Memory} {a : Nat} (h : m.size ≤ a) : m.window a = [] := by
  rw [Memory.window_eq, Memory.read_eq_none_iff.mpr h, Memory.read_eq_none_iff.mpr (by omega),
    Memory.read_eq_none_iff.mpr (by omega)]
  rfl

/-- Inside the buffer the window begins with the byte read there. -/
theorem Memory.window_of_read {m : Memory} {a : Nat} {b : Byte} (h : m.read a = some b) :
    m.window a = b :: ((m.read (a + 1)).toList ++ (m.read (a + 2)).toList) := by
  simp [Memory.window_eq, h]

/-- The window holds `min 3 (PROG_LEN - a)` bytes. -/
theorem Memory.window_length (m : Memory) (a : Nat) : (m.window a).length = min 3 (m.size - a) := by
  rw [Memory.window_eq]
  simp only [Memory.read]
  split <;> split <;> split <;> simp <;> omega

/-- Each byte of the window is the byte read there. -/
theorem Memory.window_getElem? {m : Memory} {a k : Nat} (hk : k < 3) :
    (m.window a)[k]? = m.read (a + k) := by
  rw [Memory.window_eq]
  have hk' : k = 0 ∨ k = 1 ∨ k = 2 := by omega
  simp only [Memory.read]
  rcases hk' with rfl | rfl | rfl <;> split <;> split <;> split <;> simp_all <;> omega

/-! ### The canonical form -/

theorem cellsWf_mono {size lo lo' : Nat} {cs : List Host.Cell} (hlo : lo' ≤ lo)
    (h : cellsWf size lo cs = true) : cellsWf size lo' cs = true := by
  cases cs with
  | nil => rfl
  | cons c cs =>
    simp only [cellsWf, Bool.and_eq_true, decide_eq_true_eq] at h ⊢
    exact ⟨⟨⟨by omega, h.1.1.2⟩, h.1.2⟩, h.2⟩

theorem cellsWf_size_mono {size size' : Nat} (hs : size ≤ size') {cs : List Host.Cell} :
    ∀ {lo : Nat}, cellsWf size lo cs = true → cellsWf size' lo cs = true := by
  induction cs with
  | nil => exact fun _ => rfl
  | cons c cs ih =>
    intro lo h
    simp only [cellsWf, Bool.and_eq_true, decide_eq_true_eq] at h ⊢
    exact ⟨⟨⟨h.1.1.1, by omega⟩, h.1.2⟩, ih h.2⟩

/-- Below the first offset allowed, nothing is listed. -/
theorem lookupCell_below {size : Nat} {cs : List Host.Cell} :
    ∀ {lo a : Nat}, cellsWf size lo cs = true → a < lo → lookupCell cs a = unlistedByte := by
  induction cs with
  | nil => exact fun _ _ => rfl
  | cons c cs ih =>
    intro lo a h ha
    simp only [cellsWf, Bool.and_eq_true, decide_eq_true_eq] at h
    have hne : c.1 ≠ a := by omega
    simp only [lookupCell, hne, if_false]
    exact ih h.2 (by omega)

theorem cellsWf_cellsOf (bs : List Byte) :
    ∀ a size, a + bs.length ≤ size → cellsWf size a (cellsOf a bs) = true := by
  induction bs with
  | nil => exact fun _ _ _ => rfl
  | cons b bs ih =>
    intro a size h
    simp only [List.length_cons] at h
    have h1 := ih (a + 1) size (by omega)
    by_cases hb : b = unlistedByte
    · simpa [cellsOf, hb] using cellsWf_mono (Nat.le_succ a) h1
    · simp [cellsOf, hb, cellsWf, h1, show a < size by omega]

theorem lookupCell_cellsOf (bs : List Byte) :
    ∀ a k, lookupCell (cellsOf a bs) (a + k) = (bs[k]?).getD unlistedByte := by
  induction bs with
  | nil => intro a k; rfl
  | cons b bs ih =>
    intro a k
    by_cases hb : b = unlistedByte
    · cases k with
      | zero =>
        have := lookupCell_below (cellsWf_cellsOf bs (a + 1) (a + 1 + bs.length) le_rfl)
          (Nat.lt_succ_self a)
        simpa [cellsOf, hb] using this
      | succ k => simpa [cellsOf, hb, Nat.add_assoc, Nat.add_comm 1 k] using ih (a + 1) k
    · cases k with
      | zero => simp [cellsOf, hb, lookupCell]
      | succ k =>
        simpa [cellsOf, hb, lookupCell, Nat.add_assoc, Nat.add_comm 1 k] using ih (a + 1) k

/-- A loaded buffer answers exactly the bytes loaded. -/
theorem Memory.read_load (bs : List Byte) (a : Nat) : (Memory.load bs).read a = bs[a]? := by
  by_cases h : a < bs.length
  · have := lookupCell_cellsOf bs 0 a
    simp [Memory.read, Memory.load, h] at this ⊢
    exact this
  · simp [Memory.read, Memory.load, h]

theorem Memory.wf_load (bs : List Byte) : (Memory.load bs).wf = true :=
  cellsWf_cellsOf bs 0 bs.length (by omega)

theorem Memory.wf_empty : Memory.empty.wf = true := rfl

theorem Memory.load_nil : Memory.load [] = Memory.empty := rfl

/-- A write keeps the canonical form. -/
theorem cellsWf_writeCell {size a : Nat} (b : Byte) (ha : a < size) {cs : List Host.Cell} :
    ∀ {lo : Nat}, lo ≤ a → cellsWf size lo cs = true →
      cellsWf size lo (writeCell cs a b) = true := by
  induction cs with
  | nil =>
    intro lo hlo _
    by_cases hb : b = unlistedByte <;> simp [writeCell, hb, cellsWf, hlo, ha]
  | cons c cs ih =>
    intro lo hlo h
    obtain ⟨k, v⟩ := c
    have h' := h
    simp only [cellsWf, Bool.and_eq_true, decide_eq_true_eq] at h
    obtain ⟨⟨⟨h1, h2⟩, h3⟩, h4⟩ := h
    simp only [writeCell]
    split
    · next hk => simp [cellsWf, h1, h2, h3, ih (show k + 1 ≤ a by omega) h4]
    · split
      · next hk =>
        subst hk
        split
        · exact cellsWf_mono (by omega) h4
        · next hb => simp [cellsWf, h1, h2, hb, h4]
      · split
        · exact h'
        · next hb =>
          simp [cellsWf, hlo, ha, hb, h2, h4, show a + 1 ≤ k by omega]
          simpa using h3

theorem lookupCell_writeCell_same {size a : Nat} (b : Byte) {cs : List Host.Cell} :
    ∀ {lo : Nat}, cellsWf size lo cs = true → lookupCell (writeCell cs a b) a = b := by
  induction cs with
  | nil => intro lo _; by_cases hb : b = unlistedByte <;> simp [writeCell, hb, lookupCell]
  | cons c cs ih =>
    intro lo h
    obtain ⟨k, v⟩ := c
    simp only [cellsWf, Bool.and_eq_true, decide_eq_true_eq] at h
    obtain ⟨⟨⟨h1, h2⟩, h3⟩, h4⟩ := h
    simp only [writeCell]
    split
    · next hk => simp [lookupCell, show k ≠ a by omega, ih h4]
    · split
      · next hk =>
        subst hk
        split
        · next hb => rw [lookupCell_below h4 (Nat.lt_succ_self _), hb]
        · simp [lookupCell]
      · split
        · next hk1 hk2 hb =>
          have := lookupCell_below (a := a) h4 (by omega)
          simp [lookupCell, show k ≠ a by omega, this, hb]
        · simp [lookupCell]

theorem lookupCell_writeCell_other {size a c : Nat} (b : Byte) (hc : c ≠ a) {cs : List Host.Cell} :
    ∀ {lo : Nat}, cellsWf size lo cs = true →
      lookupCell (writeCell cs a b) c = lookupCell cs c := by
  induction cs with
  | nil => intro lo _; by_cases hb : b = unlistedByte <;> simp [writeCell, hb, lookupCell, hc.symm]
  | cons d cs ih =>
    intro lo h
    obtain ⟨k, v⟩ := d
    simp only [cellsWf, Bool.and_eq_true, decide_eq_true_eq] at h
    simp only [writeCell]
    split
    · simp [lookupCell, ih h.2]
    · split
      · next hk =>
        subst hk
        split <;> simp [lookupCell, hc.symm]
      · split <;> simp [lookupCell, hc.symm]

/-- A write by the host keeps the canonical form. -/
theorem Memory.wf_write {m : Memory} (h : m.wf = true) (a : Nat) (b : Byte) :
    (m.write a b).wf = true :=
  cellsWf_writeCell b (by simp [Memory.write]) (Nat.zero_le a)
    (cellsWf_size_mono (by simp [Memory.write]) h)

theorem Memory.read_write_same {m : Memory} (h : m.wf = true) (a : Nat) (b : Byte) :
    (m.write a b).read a = some b := by
  simp [Memory.read, Memory.write, lookupCell_writeCell_same b h]

/-- A write leaves every other offset of the buffer alone. -/
theorem Memory.read_write_other {m : Memory} (h : m.wf = true) {a c : Nat} (b : Byte) (hc : c ≠ a)
    (hin : c < m.size) : (m.write a b).read c = m.read c := by
  simp [Memory.read, Memory.write, lookupCell_writeCell_other b hc h, hin]

theorem Memory.wf_place {m : Memory} (h : m.wf = true) (a : Nat) (bs : List Byte) :
    (m.place a bs).wf = true := by
  induction bs generalizing m a with
  | nil => exact h
  | cons b bs ih => exact ih (Memory.wf_write h a b) (a + 1)

theorem Memory.le_size_place (m : Memory) (a : Nat) (bs : List Byte) :
    m.size ≤ (m.place a bs).size := by
  induction bs generalizing m a with
  | nil => exact le_rfl
  | cons b bs ih => exact le_trans (by simp [Memory.write]) (ih (m.write a b) (a + 1))

/-- Placing bytes leaves the offsets below them alone. -/
theorem Memory.read_place_below {m : Memory} (h : m.wf = true) (a c : Nat) (bs : List Byte)
    (hc : c < a) (hin : c < m.size) : (m.place a bs).read c = m.read c := by
  induction bs generalizing m a with
  | nil => rfl
  | cons b bs ih =>
    rw [← Memory.read_write_other h (a := a) b (by omega) hin]
    exact ih (Memory.wf_write h a b) (a + 1) (by omega) (by simp [Memory.write]; omega)

/-- Placed bytes are read back. -/
theorem Memory.read_place {m : Memory} (h : m.wf = true) (a k : Nat) (bs : List Byte)
    (hk : k < bs.length) : (m.place a bs).read (a + k) = bs[k]? := by
  induction bs generalizing m a k with
  | nil => simp at hk
  | cons b bs ih =>
    cases k with
    | zero =>
      have := Memory.read_place_below (Memory.wf_write h a b) (a + 1) a bs (by omega)
        (by simp [Memory.write])
      simpa [Memory.place, Memory.read_write_same h] using this
    | succ k =>
      have := ih (Memory.wf_write h a b) (a + 1) k (by simpa using hk)
      simpa [Memory.place, Nat.add_assoc, Nat.add_comm 1 k] using this

end Sys2Proof.Machine
end

