-- ==== Sys2Proof/Laws/State.lean ====
section
/-! SUPPORT. One lemma per field of State per update, so that no proof unfolds a record update. -/

namespace Sys2Proof.Machine

variable (s : State)

@[simp] theorem State.setPc_pc (n : Nat) : (s.setPc n).pc = n := rfl
@[simp] theorem State.setPc_stk (n : Nat) : (s.setPc n).stk = s.stk := rfl
@[simp] theorem State.setPc_locals (n : Nat) : (s.setPc n).locals = s.locals := rfl
@[simp] theorem State.setPc_run (n : Nat) : (s.setPc n).run = s.run := rfl
@[simp] theorem State.setPc_out (n : Nat) : (s.setPc n).out = s.out := rfl
@[simp] theorem State.setPc_icount (n : Nat) : (s.setPc n).icount = s.icount := rfl
@[simp] theorem State.setPc_prog (n : Nat) : (s.setPc n).prog = s.prog := rfl
@[simp] theorem State.setPc_params (n : Nat) : (s.setPc n).params = s.params := rfl

@[simp] theorem State.setStk_pc (l : List Word) : (s.setStk l).pc = s.pc := rfl
@[simp] theorem State.setStk_stk (l : List Word) : (s.setStk l).stk = l := rfl
@[simp] theorem State.setStk_locals (l : List Word) : (s.setStk l).locals = s.locals := rfl
@[simp] theorem State.setStk_run (l : List Word) : (s.setStk l).run = s.run := rfl
@[simp] theorem State.setStk_out (l : List Word) : (s.setStk l).out = s.out := rfl
@[simp] theorem State.setStk_icount (l : List Word) : (s.setStk l).icount = s.icount := rfl
@[simp] theorem State.setStk_prog (l : List Word) : (s.setStk l).prog = s.prog := rfl
@[simp] theorem State.setStk_params (l : List Word) : (s.setStk l).params = s.params := rfl

@[simp] theorem State.setRun_pc (r : RunState) : (s.setRun r).pc = s.pc := rfl
@[simp] theorem State.setRun_stk (r : RunState) : (s.setRun r).stk = s.stk := rfl
@[simp] theorem State.setRun_locals (r : RunState) : (s.setRun r).locals = s.locals := rfl
@[simp] theorem State.setRun_run (r : RunState) : (s.setRun r).run = r := rfl
@[simp] theorem State.setRun_out (r : RunState) : (s.setRun r).out = s.out := rfl
@[simp] theorem State.setRun_icount (r : RunState) : (s.setRun r).icount = s.icount := rfl
@[simp] theorem State.setRun_prog (r : RunState) : (s.setRun r).prog = s.prog := rfl
@[simp] theorem State.setRun_params (r : RunState) : (s.setRun r).params = s.params := rfl

@[simp] theorem State.setOut_pc (o : List Word) : (s.setOut o).pc = s.pc := rfl
@[simp] theorem State.setOut_stk (o : List Word) : (s.setOut o).stk = s.stk := rfl
@[simp] theorem State.setOut_locals (o : List Word) : (s.setOut o).locals = s.locals := rfl
@[simp] theorem State.setOut_run (o : List Word) : (s.setOut o).run = s.run := rfl
@[simp] theorem State.setOut_out (o : List Word) : (s.setOut o).out = o := rfl
@[simp] theorem State.setOut_icount (o : List Word) : (s.setOut o).icount = s.icount := rfl
@[simp] theorem State.setOut_prog (o : List Word) : (s.setOut o).prog = s.prog := rfl
@[simp] theorem State.setOut_params (o : List Word) : (s.setOut o).params = s.params := rfl

@[simp] theorem State.setIcount_pc (n : Nat) : (s.setIcount n).pc = s.pc := rfl
@[simp] theorem State.setIcount_stk (n : Nat) : (s.setIcount n).stk = s.stk := rfl
@[simp] theorem State.setIcount_locals (n : Nat) : (s.setIcount n).locals = s.locals := rfl
@[simp] theorem State.setIcount_run (n : Nat) : (s.setIcount n).run = s.run := rfl
@[simp] theorem State.setIcount_out (n : Nat) : (s.setIcount n).out = s.out := rfl
@[simp] theorem State.setIcount_icount (n : Nat) : (s.setIcount n).icount = n := rfl
@[simp] theorem State.setIcount_prog (n : Nat) : (s.setIcount n).prog = s.prog := rfl
@[simp] theorem State.setIcount_params (n : Nat) : (s.setIcount n).params = s.params := rfl

@[simp] theorem State.setLocal_pc (n : Fin numLocals) (v : Word) : (s.setLocal n v).pc = s.pc := rfl
@[simp] theorem State.setLocal_stk (n : Fin numLocals) (v : Word) : (s.setLocal n v).stk = s.stk := rfl
@[simp] theorem State.setLocal_locals (n : Fin numLocals) (v : Word) : (s.setLocal n v).locals = s.locals.set n v := rfl
@[simp] theorem State.setLocal_run (n : Fin numLocals) (v : Word) : (s.setLocal n v).run = s.run := rfl
@[simp] theorem State.setLocal_out (n : Fin numLocals) (v : Word) : (s.setLocal n v).out = s.out := rfl
@[simp] theorem State.setLocal_icount (n : Fin numLocals) (v : Word) : (s.setLocal n v).icount = s.icount := rfl
@[simp] theorem State.setLocal_prog (n : Fin numLocals) (v : Word) : (s.setLocal n v).prog = s.prog := rfl
@[simp] theorem State.setLocal_params (n : Fin numLocals) (v : Word) : (s.setLocal n v).params = s.params := rfl

@[simp] theorem State.setProg_pc (m : Memory) : (s.setProg m).pc = s.pc := rfl
@[simp] theorem State.setProg_stk (m : Memory) : (s.setProg m).stk = s.stk := rfl
@[simp] theorem State.setProg_locals (m : Memory) : (s.setProg m).locals = s.locals := rfl
@[simp] theorem State.setProg_run (m : Memory) : (s.setProg m).run = s.run := rfl
@[simp] theorem State.setProg_out (m : Memory) : (s.setProg m).out = s.out := rfl
@[simp] theorem State.setProg_icount (m : Memory) : (s.setProg m).icount = s.icount := rfl
@[simp] theorem State.setProg_prog (m : Memory) : (s.setProg m).prog = m := rfl
@[simp] theorem State.setProg_params (m : Memory) : (s.setProg m).params = s.params := rfl

end Sys2Proof.Machine
end

