-- ==== Sys2Proof/Laws/Ops.lean ====
section
/-! SUPPORT. What each shared operation can do, said once: the later proofs cite these and do not
unfold the operations. -/

namespace Sys2Proof.Machine

variable {s : State}

@[simp] theorem Phase.ok_andThen {α β : Type} (v : α) (s : State) (k : α → State → Phase β) :
    (Phase.ok v s).andThen k = k v s := rfl

@[simp] theorem Phase.raised_andThen {α β : Type} (s : State) (k : α → State → Phase β) :
    (Phase.raised s : Phase α).andThen k = .raised s := rfl

@[simp] theorem raise_andThen {α β : Type} (kind : FaultKind) (s : State)
    (k : α → State → Phase β) : (raise kind s).andThen k = raise kind s := rfl

/-! ### Operand stack -/

theorem push_of_room (v : Word) (h : s.params.stackCapacity ≠ some s.stk.length) :
    push v s = .ok () (s.setStk (v :: s.stk)) := by
  simp [push, depth, h]

theorem push_of_full (v : Word) (h : s.params.stackCapacity = some s.stk.length) :
    push v s = raise .capacityExceeded s := by
  simp [push, depth, h]

theorem pop_nil (h : s.stk = []) : pop s = raise .stackUnderflow s := by simp [pop, h]

theorem pop_cons {t : Word} {rest : List Word} (h : s.stk = t :: rest) :
    pop s = .ok t (s.setStk rest) := by simp [pop, h]

theorem peek_nil (h : s.stk = []) : peek s = raise .stackUnderflow s := by simp [peek, h]

theorem peek_cons {t : Word} {rest : List Word} (h : s.stk = t :: rest) : peek s = .ok t s := by
  simp [peek, h]

/-! ### Index, target and operand pair -/

theorem checkIndex_of_lt {n : Nat} (h : n < numLocals) : checkIndex n s = .ok ⟨n, h⟩ s := by
  simp [checkIndex, h]

theorem checkIndex_of_gt {n : Nat} (h : 9 < n) : checkIndex n s = raise .invalidIndex s := by
  have : ¬n < numLocals := Nat.not_lt.mpr h
  simp [checkIndex, this]

theorem branchTarget_inside {off : Int} (h0 : 0 ≤ (s.pc : Int) + off)
    (h1 : (s.pc : Int) + off < (s.prog.size : Int)) :
    branchTarget off s = .ok ((s.pc : Int) + off).toNat s := by
  simp [branchTarget, Int.not_lt.mpr h0, Int.not_le.mpr h1]

theorem branchTarget_outside {off : Int}
    (h : (s.pc : Int) + off < 0 ∨ (s.prog.size : Int) ≤ (s.pc : Int) + off) :
    branchTarget off s = raise .truncatedProgram s := by
  simp [branchTarget, h]

theorem aluOp_nil {op : Word → Word → Option Word} (h : s.stk = []) :
    aluOp op s = raise .stackUnderflow s := by
  simp [aluOp, pop_nil h]

theorem aluOp_one {op : Word → Word → Option Word} {t : Word} (h : s.stk = [t]) :
    aluOp op s = raise .stackUnderflow (s.setStk []) := by
  simp [aluOp, pop_cons h, pop_nil (s := s.setStk []) rfl]

/-- With two operands, an operation that gives a result pushes it: there is room, because two elements
have just gone. -/
theorem aluOp_result {op : Word → Word → Option Word} {a b r : Word} {rest : List Word}
    (h : s.stk = b :: a :: rest) (hr : op a b = some r)
    (room : s.params.stackCapacity ≠ some rest.length) :
    aluOp op s = .ok () (s.setStk (r :: rest)) := by
  have hp : pop (s.setStk (a :: rest)) = .ok a (s.setStk rest) := by
    rw [pop_cons (s := s.setStk (a :: rest)) rfl]
    rfl
  have hq : push r (s.setStk rest) = .ok () (s.setStk (r :: rest)) := by
    rw [push_of_room (s := s.setStk rest) r (by simpa using room)]
    rfl
  simp [aluOp, pop_cons h, hp, hr, hq]

/-- With two operands, an operation that raises `DivisionByZero` has lost both. -/
theorem aluOp_fault {op : Word → Word → Option Word} {a b : Word} {rest : List Word}
    (h : s.stk = b :: a :: rest) (hr : op a b = none) :
    aluOp op s = raise .divisionByZero (s.setStk rest) := by
  have hp : pop (s.setStk (a :: rest)) = .ok a (s.setStk rest) := by
    rw [pop_cons (s := s.setStk (a :: rest)) rfl]
    rfl
  simp [aluOp, pop_cons h, hp, hr]

/-! ### The end of a step -/

@[simp] theorem complete_ok (next : Nat) (s : State) :
    complete (.ok next s) = .next (retire next s) := rfl

@[simp] theorem complete_raise (kind : FaultKind) (s : State) :
    complete (raise kind s) = .next (faulted kind s) := rfl

@[simp] theorem fallThrough_ok (n : Nat) (s : State) :
    fallThrough n (.ok () s) = .next (retire (s.pc + n) s) := rfl

@[simp] theorem fallThrough_raise (n : Nat) (kind : FaultKind) (s : State) :
    fallThrough n (raise kind s) = .next (faulted kind s) := rfl

/-- Retiring in a running state moves the pc, and the counter when a budget is set. -/
theorem retire_running (next : Nat) (h : s.run = .running) :
    retire next s = { s with pc := next,
                             icount := if s.params.instrBudget.isSome then s.icount + 1
                                       else s.icount } := by
  simp only [retire, advance, countInstruction, h, if_true]
  split <;> simp_all [State.setPc, State.setIcount]

/-- Retiring in a halted state leaves the pc. -/
theorem retire_halted (next : Nat) (h : s.run ≠ .running) :
    retire next s = { s with icount := if s.params.instrBudget.isSome then s.icount + 1
                                       else s.icount } := by
  simp only [retire, advance, countInstruction, h, if_false]
  split <;> simp_all [State.setIcount]

@[simp] theorem advance_stk (next : Nat) : (advance next s).stk = s.stk := by
  unfold advance; split <;> rfl
@[simp] theorem advance_locals (next : Nat) : (advance next s).locals = s.locals := by
  unfold advance; split <;> rfl
@[simp] theorem advance_run (next : Nat) : (advance next s).run = s.run := by
  unfold advance; split <;> rfl
@[simp] theorem advance_out (next : Nat) : (advance next s).out = s.out := by
  unfold advance; split <;> rfl
@[simp] theorem advance_prog (next : Nat) : (advance next s).prog = s.prog := by
  unfold advance; split <;> rfl
@[simp] theorem advance_params (next : Nat) : (advance next s).params = s.params := by
  unfold advance; split <;> rfl

@[simp] theorem countInstruction_pc : (countInstruction s).pc = s.pc := by
  unfold countInstruction; split <;> rfl
@[simp] theorem countInstruction_stk : (countInstruction s).stk = s.stk := by
  unfold countInstruction; split <;> rfl
@[simp] theorem countInstruction_locals : (countInstruction s).locals = s.locals := by
  unfold countInstruction; split <;> rfl
@[simp] theorem countInstruction_run : (countInstruction s).run = s.run := by
  unfold countInstruction; split <;> rfl
@[simp] theorem countInstruction_out : (countInstruction s).out = s.out := by
  unfold countInstruction; split <;> rfl
@[simp] theorem countInstruction_prog : (countInstruction s).prog = s.prog := by
  unfold countInstruction; split <;> rfl
@[simp] theorem countInstruction_params : (countInstruction s).params = s.params := by
  unfold countInstruction; split <;> rfl

@[simp] theorem retire_stk (next : Nat) : (retire next s).stk = s.stk := by simp [retire]
@[simp] theorem retire_locals (next : Nat) : (retire next s).locals = s.locals := by simp [retire]
@[simp] theorem retire_run (next : Nat) : (retire next s).run = s.run := by simp [retire]
@[simp] theorem retire_out (next : Nat) : (retire next s).out = s.out := by simp [retire]
@[simp] theorem retire_prog (next : Nat) : (retire next s).prog = s.prog := by simp [retire]
@[simp] theorem retire_params (next : Nat) : (retire next s).params = s.params := by simp [retire]

@[simp] theorem faulted_run (kind : FaultKind) : (faulted kind s).run = .haltedFault kind := rfl
@[simp] theorem faulted_stk (kind : FaultKind) : (faulted kind s).stk = s.stk := rfl
@[simp] theorem faulted_pc (kind : FaultKind) : (faulted kind s).pc = s.pc := rfl
@[simp] theorem faulted_locals (kind : FaultKind) : (faulted kind s).locals = s.locals := rfl
@[simp] theorem faulted_out (kind : FaultKind) : (faulted kind s).out = s.out := rfl
@[simp] theorem faulted_icount (kind : FaultKind) : (faulted kind s).icount = s.icount := rfl
@[simp] theorem faulted_prog (kind : FaultKind) : (faulted kind s).prog = s.prog := rfl
@[simp] theorem faulted_params (kind : FaultKind) : (faulted kind s).params = s.params := rfl

/-! ### Fetch -/

/-- Fetching changes nothing: it answers an instruction in the same state, or it records one of two
faults. -/
theorem fetch_cases (s : State) :
    (∃ i rest, decode s.params.opcodeMap (s.prog.window s.pc) = .ok (i, rest) ∧ fetch s = .ok i s) ∨
    fetch s = raise .truncatedProgram s ∨ fetch s = raise .unknownOpcode s := by
  unfold fetch
  split
  · next i rest h => exact .inl ⟨i, rest, h, rfl⟩
  · exact .inr (.inl rfl)
  · exact .inr (.inr rfl)
  · exact .inr (.inl rfl)

end Sys2Proof.Machine
end

