-- ==== Sys2Proof/Laws/Exec.lean ====
section
/-! SUPPORT. What one instruction and one step can do, said once: an instruction raises a fault with at
most its pops done, or it completes with a state and a next pc; every claim about all instructions is
a case analysis on `exec_cases`. -/

namespace Sys2Proof.Machine

/-- What an instruction that completes leaves, before the step's last two lines. -/
structure Completion (i : Instr) (s : State) (next : Nat) (u : State) : Prop where
  pc       : u.pc = s.pc
  icount   : u.icount = s.icount
  prog     : u.prog = s.prog
  params   : u.params = s.params
  run      : (i = .ret ∧ u.run = .haltedOk) ∨ (i ≠ .ret ∧ u.run = s.run)
  next     : next = s.pc + i.length ∨
    (next < s.prog.size ∧
      ∃ off, (i = .branchIfZero off ∨ i = .goto off) ∧ (next : Int) = (s.pc : Int) + off)
  out      : u.out = s.out ∨ (i = .print ∧ ∃ x rest, s.stk = x :: rest ∧ u.out = s.out ++ [x])
  locals   : ∀ k : Fin numLocals, u.locals[k] = s.locals[k] ∨ i = .storeLocal k ∨ ∃ d, i = .incLocal k d
  capacity : withinCapacity s → withinCapacity u

/-- One of the two ways an instruction ends. -/
def ends (i : Instr) (s : State) (o : Host.Outcome State Fault Refusal) : Prop :=
  (∃ kind popped rest, s.stk = popped ++ rest ∧ popped.length ≤ 2 ∧ kind ≠ .timeout ∧
    o = .next (faulted kind (s.setStk rest))) ∨
  (∃ next u, Completion i s next u ∧ o = .next (retire next u))

variable {i : Instr} {s : State}

theorem State.setStk_self (s : State) : s.setStk s.stk = s := rfl

/-- A fault raised before anything was popped. -/
theorem ends_raise {kind : FaultKind} (hk : kind ≠ .timeout) : ends i s (.next (faulted kind s)) :=
  .inl ⟨kind, [], s.stk, rfl, by simp, hk, rfl⟩

/-- A fault raised after `popped` was popped. -/
theorem ends_raise_popped {kind : FaultKind} {popped rest : List Word} (hk : kind ≠ .timeout)
    (h : s.stk = popped ++ rest) (hl : popped.length ≤ 2) :
    ends i s (.next (faulted kind (s.setStk rest))) :=
  .inl ⟨kind, popped, rest, h, hl, hk, rfl⟩

/-- An instruction that completes. -/
theorem ends_complete {next : Nat} {u : State} (c : Completion i s next u) :
    ends i s (.next (retire next u)) := .inr ⟨next, u, c, rfl⟩

theorem withinCapacity_of_le {u : State} (hp : u.params = s.params)
    (hl : u.stk.length ≤ s.stk.length) (h : withinCapacity s) : withinCapacity u := by
  unfold withinCapacity at *
  rw [hp]
  cases hc : s.params.stackCapacity with
  | none => trivial
  | some c =>
    simp only [hc] at h ⊢
    omega

theorem withinCapacity_of_room {u : State} (hp : u.params = s.params)
    (hl : u.stk.length = s.stk.length + 1) (room : hasRoom s) (h : withinCapacity s) :
    withinCapacity u := by
  unfold withinCapacity hasRoom at *
  rw [hp]
  cases hc : s.params.stackCapacity with
  | none => trivial
  | some c =>
    simp only [hc] at h room ⊢
    have : c ≠ s.stk.length := fun e => room (by rw [e])
    omega

/-- An instruction that only replaces the stack by one no deeper completes. -/
theorem ends_setStk {l : List Word} {n : Nat} (hi : i ≠ .ret) (hn : n = i.length)
    (hc : withinCapacity s → withinCapacity (s.setStk l)) :
    ends i s (.next (retire (s.pc + n) (s.setStk l))) :=
  ends_complete ⟨rfl, rfl, rfl, rfl, .inr ⟨hi, rfl⟩, .inl (by rw [hn]), .inl rfl, fun _ => .inl rfl, hc⟩

/-- Pushing ends in one of the two ways. -/
theorem ends_push {n : Nat} (v : Word) (hi : i ≠ .ret) (hn : n = i.length) :
    ends i s (fallThrough n (push v s)) := by
  by_cases h : s.params.stackCapacity = some s.stk.length
  · rw [push_of_full v h]
    exact ends_raise (by simp)
  · rw [push_of_room v h]
    exact ends_setStk hi hn (withinCapacity_of_room rfl (by simp) h)

/-- Every ALU instruction ends in one of the two ways. -/
theorem ends_aluOp (op : Word → Word → Option Word) (hi : i ≠ .ret) (hn : 1 = i.length) :
    ends i s (fallThrough 1 (aluOp op s)) := by
  match hs : s.stk with
  | [] =>
    rw [aluOp_nil hs]
    exact ends_raise (by simp)
  | [t] =>
    rw [aluOp_one hs]
    exact ends_raise_popped (popped := [t]) (by simp) hs (by simp)
  | b :: a :: rest =>
    cases hr : op a b with
    | none =>
      rw [aluOp_fault hs hr]
      exact ends_raise_popped (popped := [b, a]) (by simp) hs (by simp)
    | some r =>
      by_cases hc : s.params.stackCapacity = some rest.length
      · have hq : aluOp op s = raise .capacityExceeded (s.setStk rest) := by
          simp [aluOp, pop_cons hs, pop_cons (s := s.setStk (a :: rest)) rfl, hr]
          exact push_of_full (s := s.setStk rest) r hc
        rw [hq]
        exact ends_raise_popped (popped := [b, a]) (by simp) hs (by simp)
      · rw [aluOp_result hs hr hc]
        exact ends_setStk hi hn (withinCapacity_of_le rfl (by simp [hs]))

/-- A taken branch ends in one of the two ways, from any state that has popped what it pops. -/
theorem ends_branch {u : State} {off : Int} {popped : List Word}
    (hi : i = .branchIfZero off ∨ i = .goto off) (hs : s.stk = popped ++ u.stk)
    (hl : popped.length ≤ 2) (hu : u = s.setStk u.stk) :
    ends i s (complete (branchTarget off u)) := by
  by_cases h : (u.pc : Int) + off < 0 ∨ (u.prog.size : Int) ≤ (u.pc : Int) + off
  · rw [branchTarget_outside h, complete_raise, hu]
    exact ends_raise_popped (by simp) hs hl
  · have h' := not_or.mp h
    rw [branchTarget_inside (by omega) (by omega)]
    have hpc : u.pc = s.pc := by rw [hu]; rfl
    have hprog : u.prog = s.prog := by rw [hu]; rfl
    refine .inr ⟨_, u, ⟨hpc, by rw [hu]; rfl, hprog, by rw [hu]; rfl, .inr ⟨?_, by rw [hu]; rfl⟩,
      .inr ⟨by rw [← hprog]; omega, off, hi, by rw [← hpc]; omega⟩, .inl (by rw [hu]; rfl),
      fun k => .inl (by rw [hu]; rfl),
      withinCapacity_of_le (by rw [hu]; rfl) (by simp [hs])⟩, rfl⟩
    rcases hi with rfl | rfl <;> simp

/-- Every instruction ends in one of the two ways; in particular it answers a next state. -/
theorem exec_cases (i : Instr) (s : State) : ends i s (exec i s) := by
  cases i with
  | constZero => exact ends_push 0 (by simp) rfl
  | pushByte v => exact ends_push _ (by simp) rfl
  | loadLocal n =>
    by_cases hn : n < numLocals
    · simp only [exec, execLoadLocal, checkIndex_of_lt hn, Phase.ok_andThen]
      exact ends_push _ (by simp) rfl
    · simp only [exec, execLoadLocal, checkIndex_of_gt (Nat.not_lt.mp hn), raise_andThen]
      exact ends_raise (by simp)
  | storeLocal n =>
    by_cases hn : n < numLocals
    · cases hs : s.stk with
      | nil =>
        simp only [exec, execStoreLocal, checkIndex_of_lt hn, Phase.ok_andThen, pop_nil hs,
          raise_andThen]
        exact ends_raise (by simp)
      | cons v rest =>
        simp only [exec, execStoreLocal, checkIndex_of_lt hn, Phase.ok_andThen, pop_cons hs,
          fallThrough_ok]
        refine ends_complete ⟨rfl, rfl, rfl, rfl, .inr ⟨by simp, rfl⟩, .inl rfl, .inl rfl, ?_,
          withinCapacity_of_le rfl (by simp [writeLocal, hs])⟩
        intro k
        by_cases hk : k = ⟨n, hn⟩
        · exact .inr (.inl (by rw [hk]))
        · left
          simp only [writeLocal, State.setLocal_locals, State.setStk_locals]
          exact Vector.getElem_set_ne _ _ (fun e => hk (Fin.ext e.symm))
    · simp only [exec, execStoreLocal, checkIndex_of_gt (Nat.not_lt.mp hn), raise_andThen]
      exact ends_raise (by simp)
  | pop =>
    cases hs : s.stk with
    | nil =>
      simp only [exec, execPop, pop_nil hs, raise_andThen]
      exact ends_raise (by simp)
    | cons x rest =>
      simp only [exec, execPop, pop_cons hs, Phase.ok_andThen]
      exact ends_setStk (by simp) rfl (withinCapacity_of_le rfl (by simp [hs]))
  | dup =>
    cases hs : s.stk with
    | nil =>
      simp only [exec, execDup, peek_nil hs, raise_andThen]
      exact ends_raise (by simp)
    | cons x rest =>
      simp only [exec, execDup, peek_cons hs, Phase.ok_andThen]
      exact ends_push _ (by simp) rfl
  | add => exact ends_aluOp _ (by simp) rfl
  | sub => exact ends_aluOp _ (by simp) rfl
  | mul => exact ends_aluOp _ (by simp) rfl
  | div => exact ends_aluOp _ (by simp) rfl
  | rem => exact ends_aluOp _ (by simp) rfl
  | shrArith => exact ends_aluOp _ (by simp) rfl
  | incLocal n d =>
    by_cases hn : n < numLocals
    · simp only [exec, execIncLocal, checkIndex_of_lt hn, Phase.ok_andThen, fallThrough_ok]
      refine ends_complete ⟨rfl, rfl, rfl, rfl, .inr ⟨by simp, rfl⟩, .inl rfl, .inl rfl, ?_,
        fun h => h⟩
      intro k
      by_cases hk : k = ⟨n, hn⟩
      · exact .inr (.inr ⟨d, by rw [hk]⟩)
      · left
        simp only [writeLocal, State.setLocal_locals]
        exact Vector.getElem_set_ne _ _ (fun e => hk (Fin.ext e.symm))
    · simp only [exec, execIncLocal, checkIndex_of_gt (Nat.not_lt.mp hn), raise_andThen]
      exact ends_raise (by simp)
  | branchIfZero off =>
    cases hs : s.stk with
    | nil =>
      simp only [exec, execBranchIfZero, pop_nil hs, raise_andThen]
      exact ends_raise (by simp)
    | cons v rest =>
      simp only [exec, execBranchIfZero, pop_cons hs, Phase.ok_andThen]
      split
      · exact ends_branch (u := s.setStk rest) (popped := [v]) (.inl rfl) hs (by simp) rfl
      · exact ends_setStk (by simp) rfl (withinCapacity_of_le rfl (by simp [hs]))
  | goto off => exact ends_branch (popped := []) (.inr rfl) rfl (by simp) rfl
  | ret =>
    simp only [exec, execRet, fallThrough_ok]
    exact ends_complete ⟨rfl, rfl, rfl, rfl, .inl ⟨rfl, rfl⟩, .inl rfl, .inl rfl, fun _ => .inl rfl,
      fun h => h⟩
  | print =>
    cases hs : s.stk with
    | nil =>
      simp only [exec, execPrint, peek_nil hs, raise_andThen]
      exact ends_raise (by simp)
    | cons x rest =>
      simp only [exec, execPrint, peek_cons hs, Phase.ok_andThen, fallThrough_ok]
      exact ends_complete ⟨rfl, rfl, rfl, rfl, .inr ⟨by simp, rfl⟩, .inl rfl,
        .inr ⟨rfl, x, rest, hs, rfl⟩, fun _ => .inl rfl, fun h => h⟩

/-! ### The step -/

/-- What a step of a running engine does: a timeout, a fetch fault, or one instruction. -/
theorem step_running (h : s.run = .running) :
    (budgetSpent s ∧ step s = .next (faulted .timeout s)) ∨
    (¬budgetSpent s ∧ (step s = .next (faulted .truncatedProgram s) ∨
      step s = .next (faulted .unknownOpcode s))) ∨
    (¬budgetSpent s ∧ ∃ i rest, decode s.params.opcodeMap (s.prog.window s.pc) = .ok (i, rest) ∧
      step s = exec i s) := by
  by_cases hb : budgetSpent s
  · exact .inl ⟨hb, by simp [step, h, hb]⟩
  · right
    rcases fetch_cases s with ⟨i, rest, hd, hf⟩ | hf | hf
    · exact .inr ⟨hb, i, rest, hd, by simp [step, h, hb, hf]⟩
    · exact .inl ⟨hb, .inl (by simp [step, h, hb, hf, raise])⟩
    · exact .inl ⟨hb, .inr (by simp [step, h, hb, hf, raise])⟩

/-- A halted engine has no step. -/
theorem step_halted (h : s.run ≠ .running) : step s = .fault .notRunning := by
  unfold step
  split <;> simp_all

/-- `withFetchWord` does what the host asks of it: with the default map, and a budget not used up, the
next step runs the instruction that the decoder reads from the table's word. -/
theorem step_withFetchWord {nbits w : Nat} (hr : s.run = .running) (hb : ¬budgetSpent s)
    (hwf : s.prog.wf = true) (hm : s.params.opcodeMap = OpcodeMap.default)
    (hd : decodeTableWord nbits w = some i) :
    step (s.withFetchWord nbits w) = exec i (s.withFetchWord nbits w) := by
  have hw : (s.withFetchWord nbits w).prog.window (s.withFetchWord nbits w).pc
      = tableBytes nbits w := by
    apply List.ext_getElem?
    intro k
    by_cases hk : k < 3
    · rw [Memory.window_getElem? hk]
      exact Memory.read_place hwf s.pc k _ (by simpa [tableBytes] using hk)
    · have := Memory.window_length (s.withFetchWord nbits w).prog (s.withFetchWord nbits w).pc
      rw [List.getElem?_eq_none (by omega), List.getElem?_eq_none (by simp [tableBytes, maxLength]; omega)]
  unfold decodeTableWord at hd
  have hf : fetch (s.withFetchWord nbits w) = .ok i (s.withFetchWord nbits w) := by
    unfold fetch
    rw [hw, show (s.withFetchWord nbits w).params.opcodeMap = OpcodeMap.default from hm]
    split at hd <;> simp_all
  have hr' : (s.withFetchWord nbits w).run = .running := hr
  have hb' : ¬budgetSpent (s.withFetchWord nbits w) := hb
  simp [step, hr', hb', hf]

/-- A run of no steps. -/
theorem core_run_zero (s : State) : Host.Core.run core 0 s = .next s := rfl

/-- A run goes on from the state its first step answers. -/
theorem core_run_next {t : State} (k : Nat) (h : step s = .next t) :
    Host.Core.run core (k + 1) s = Host.Core.run core k t := by
  have e := Host.Core.run.eq_2 core s k
  rw [show core.step s = .next t from h] at e
  exact e

/-- A run stops at the first step that answers a fault. -/
theorem core_run_fault {r : Fault} (k : Nat) (h : step s = .fault r) :
    Host.Core.run core (k + 1) s = .fault r := by
  have e := Host.Core.run.eq_2 core s k
  rw [show core.step s = .fault r from h] at e
  exact e

/-- An instruction that decodes at the pc ends inside the buffer. -/
theorem decoded_inside {rest : List Byte} {m : OpcodeMap}
    (h : decode m (s.prog.window s.pc) = .ok (i, rest)) : s.pc + i.length ≤ s.prog.size := by
  have hlen := Memory.window_length s.prog s.pc
  cases hw : s.prog.window s.pc with
  | nil => simp [hw, decode] at h
  | cons b bs =>
    rw [hw] at h hlen
    cases ho : opcodeAt m b with
    | none => simp [decode_of_unknown ho] at h
    | some op =>
      rw [decode_cons ho] at h
      rcases decodeOperands_cases op bs with ⟨j, r, hj, hop, -, -, hl⟩ | ⟨hj, -⟩
      · rw [hj] at h
        simp only [Except.ok.injEq, Prod.mk.injEq] at h
        obtain ⟨rfl, rfl⟩ := h
        have : j.length = op.length := by rw [Instr.length, hop]
        simp only [List.length_cons] at hlen
        omega
      · simp [hj] at h

end Sys2Proof.Machine
end

