-- ==== Sys2Proof/Laws/PerInstr.lean ====
section
/-! SUPPORT. Families of statements about each instruction as syntax, one lemma per constructor. -/

namespace Sys2Proof.Laws.Encoded

/-- An instruction's encoding begins with its opcode's byte and is as long as rule R72 says its opcode
is, under every opcode map. -/
def Statement (i : Instr) : Prop :=
  ∀ m : OpcodeMap, (encode m i).head? = some (m.byteOf i.opcode) ∧
    (encode m i).length = i.opcode.format.length

theorem constZero : Statement .constZero := fun _ => ⟨rfl, rfl⟩
theorem pushByte (v : Int) : Statement (.pushByte v) := fun _ => ⟨rfl, rfl⟩
theorem loadLocal (n : Nat) : Statement (.loadLocal n) := fun _ => ⟨rfl, rfl⟩
theorem storeLocal (n : Nat) : Statement (.storeLocal n) := fun _ => ⟨rfl, rfl⟩
theorem pop : Statement .pop := fun _ => ⟨rfl, rfl⟩
theorem dup : Statement .dup := fun _ => ⟨rfl, rfl⟩
theorem add : Statement .add := fun _ => ⟨rfl, rfl⟩
theorem sub : Statement .sub := fun _ => ⟨rfl, rfl⟩
theorem mul : Statement .mul := fun _ => ⟨rfl, rfl⟩
theorem div : Statement .div := fun _ => ⟨rfl, rfl⟩
theorem rem : Statement .rem := fun _ => ⟨rfl, rfl⟩
theorem shrArith : Statement .shrArith := fun _ => ⟨rfl, rfl⟩
theorem incLocal (n : Nat) (d : Int) : Statement (.incLocal n d) := fun _ => ⟨rfl, rfl⟩
theorem branchIfZero (off : Int) : Statement (.branchIfZero off) := fun _ => ⟨rfl, rfl⟩
theorem goto (off : Int) : Statement (.goto off) := fun _ => ⟨rfl, rfl⟩
theorem ret : Statement .ret := fun _ => ⟨rfl, rfl⟩
theorem print : Statement .print := fun _ => ⟨rfl, rfl⟩

end Sys2Proof.Laws.Encoded
end

