-- ==== Sys2Proof/Laws/View.lean ====
section
/-! SUPPORT. Comparing two runs. A view is a second state that differs from a first in what an
instruction should not notice: elements deep in the stack, the bank (for an instruction that does not
use it), the capacity (removed) and the pc width. An instruction commutes with every view, except
where the fault that the view takes away was raised. Isolation and refinement follow from it. -/

namespace Sys2Proof.Machine

/-- How a second state differs from a first. -/
structure View where
  deep     : List Word
  bank     : Option (Vector Word numLocals)
  uncapped : Bool
  pcBits   : Option Nat

/-- The second state's parameters. -/
def View.params (v : View) (p : Params) : Params :=
  { p with stackCapacity := if v.uncapped then none else p.stackCapacity,
           pcBits := v.pcBits.getD p.pcBits }

/-- The second state. -/
def View.of (v : View) (s : State) : State :=
  { s with stk := s.stk ++ v.deep, locals := v.bank.getD s.locals, params := v.params s.params }

/-- Elements are added below the stack only where the capacity is removed. -/
def View.Sound (v : View) : Prop := v.deep = [] ∨ v.uncapped = true

/-- The first run ended in a fault that the second does not raise. -/
def View.Loses (v : View) (s : State) : Prop :=
  (s.run = .haltedFault .stackUnderflow ∧ v.deep ≠ []) ∨
  (s.run = .haltedFault .capacityExceeded ∧ s.params.stackCapacity ≠ none ∧ v.uncapped = true)

/-- The same part of a step in the second state. -/
def Phase.map {α : Type} (f : State → State) : Phase α → Phase α
  | .ok x s => .ok x (f s)
  | .raised s => .raised (f s)

/-- Two parts of a step agree under a view, or the first raised a fault the view takes away. -/
def View.Agree {α : Type} (v : View) (p' p : Phase α) : Prop :=
  p' = p.map v.of ∨ ∃ u, p = .raised u ∧ v.Loses u

variable {v : View} {s : State}

@[simp] theorem View.of_run : (v.of s).run = s.run := rfl
@[simp] theorem View.of_pc : (v.of s).pc = s.pc := rfl
@[simp] theorem View.of_out : (v.of s).out = s.out := rfl
@[simp] theorem View.of_icount : (v.of s).icount = s.icount := rfl
@[simp] theorem View.of_prog : (v.of s).prog = s.prog := rfl
@[simp] theorem View.of_stk : (v.of s).stk = s.stk ++ v.deep := rfl
@[simp] theorem View.of_instrBudget : (v.of s).params.instrBudget = s.params.instrBudget := rfl
@[simp] theorem View.of_divOverflowFault :
    (v.of s).params.divOverflowFault = s.params.divOverflowFault := rfl
@[simp] theorem View.of_opcodeMap : (v.of s).params.opcodeMap = s.params.opcodeMap := rfl

theorem View.Agree.ok {α : Type} (x : α) (s : State) : v.Agree (.ok x (v.of s)) (.ok x s) := .inl rfl

theorem View.Agree.raise {α : Type} (kind : FaultKind) (s : State) :
    v.Agree (raise kind (v.of s) : Phase α) (raise kind s) := .inl rfl

/-- Agreement of the parts gives agreement of the whole. -/
theorem View.Agree.andThen {α β : Type} {p' p : Phase α} {k' k : α → State → Phase β}
    (hp : v.Agree p' p) (hk : ∀ x u, v.Agree (k' x (v.of u)) (k x u)) :
    v.Agree (p'.andThen k') (p.andThen k) := by
  rcases hp with rfl | ⟨u, rfl, hu⟩
  · cases p with
    | ok x u => exact hk x u
    | raised u => exact .inl rfl
  · exact .inr ⟨u, rfl, hu⟩

/-! ### The shared operations -/

theorem agree_push (hv : v.Sound) (x : Word) (s : State) : v.Agree (push x (v.of s)) (push x s) := by
  by_cases hu : v.uncapped = true
  · rw [push_of_room x (s := v.of s) (by simp [View.of, View.params, hu])]
    by_cases h : s.params.stackCapacity = some s.stk.length
    · rw [push_of_full x h]
      exact .inr ⟨_, rfl, .inr ⟨rfl, by simp [h], hu⟩⟩
    · rw [push_of_room x h]
      exact .ok () (s.setStk (x :: s.stk))
  · have hd : v.deep = [] := hv.resolve_right hu
    have hc : (v.of s).params.stackCapacity = s.params.stackCapacity := by
      simp [View.of, View.params, hu]
    by_cases h : s.params.stackCapacity = some s.stk.length
    · rw [push_of_full x h, push_of_full x (by simp [hc, hd, h])]
      exact .raise _ s
    · rw [push_of_room x h, push_of_room x (by simpa [hc, hd] using h)]
      exact .ok () (s.setStk (x :: s.stk))

theorem agree_pop (v : View) (s : State) : v.Agree (pop (v.of s)) (pop s) := by
  cases hs : s.stk with
  | nil =>
    by_cases hd : v.deep = []
    · rw [pop_nil hs, pop_nil (by simp [hs, hd])]
      exact .raise _ s
    · rw [pop_nil hs]
      exact .inr ⟨_, rfl, .inl ⟨rfl, hd⟩⟩
  | cons t rest =>
    rw [pop_cons hs, pop_cons (s := v.of s) (t := t) (rest := rest ++ v.deep) (by simp [hs])]
    exact .ok t (s.setStk rest)

theorem agree_peek (v : View) (s : State) : v.Agree (peek (v.of s)) (peek s) := by
  cases hs : s.stk with
  | nil =>
    by_cases hd : v.deep = []
    · rw [peek_nil hs, peek_nil (by simp [hs, hd])]
      exact .raise _ s
    · rw [peek_nil hs]
      exact .inr ⟨_, rfl, .inl ⟨rfl, hd⟩⟩
  | cons t rest =>
    rw [peek_cons hs, peek_cons (s := v.of s) (t := t) (rest := rest ++ v.deep) (by simp [hs])]
    exact .ok t s

theorem agree_checkIndex (v : View) (n : Nat) (s : State) :
    v.Agree (checkIndex n (v.of s)) (checkIndex n s) := by
  by_cases h : n < numLocals
  · rw [checkIndex_of_lt h, checkIndex_of_lt h]
    exact .ok _ s
  · rw [checkIndex_of_gt (Nat.not_lt.mp h), checkIndex_of_gt (Nat.not_lt.mp h)]
    exact .raise _ s

theorem agree_aluOp (hv : v.Sound) (op : Word → Word → Option Word) (s : State) :
    v.Agree (aluOp op (v.of s)) (aluOp op s) :=
  (agree_pop v s).andThen fun t u => (agree_pop v u).andThen fun a w => by
    cases op a t with
    | none => exact .raise _ w
    | some r => exact agree_push hv r w

theorem agree_branchTarget (v : View) (off : Int) (s : State) :
    v.Agree (branchTarget off (v.of s)) (branchTarget off s) := by
  by_cases h : (s.pc : Int) + off < 0 ∨ (s.prog.size : Int) ≤ (s.pc : Int) + off
  · rw [branchTarget_outside h, branchTarget_outside (s := v.of s) h]
    exact .raise _ s
  · have h0 : 0 ≤ (s.pc : Int) + off := by omega
    have h1 : (s.pc : Int) + off < (s.prog.size : Int) := by omega
    rw [branchTarget_inside h0 h1, branchTarget_inside (s := v.of s) h0 h1]
    exact .ok _ s

/-! ### The end of a step -/

theorem retire_of (v : View) (n : Nat) (s : State) : retire n (v.of s) = v.of (retire n s) := by
  unfold retire advance countInstruction
  by_cases hr : s.run = .running
  · simp only [View.of_run, hr, if_true]
    split <;> split <;> simp_all [View.of, State.setPc, State.setIcount, View.params]
  · simp only [View.of_run, hr, if_false]
    split <;> split <;> simp_all [View.of, State.setIcount, View.params]

theorem complete_agree {p' p : Phase Nat} {t : State} (h : v.Agree p' p) (ht : complete p = .next t) :
    complete p' = .next (v.of t) ∨ v.Loses t := by
  rcases h with rfl | ⟨u, rfl, hu⟩
  · cases p with
    | ok n u =>
      simp only [complete_ok, Host.Outcome.next.injEq] at ht
      subst ht
      exact .inl (congrArg _ (retire_of v n u))
    | raised u =>
      cases ht
      exact .inl rfl
  · cases ht
    exact .inr hu

theorem fallThrough_agree {p' p : Phase Unit} {n : Nat} {t : State} (h : v.Agree p' p)
    (ht : fallThrough n p = .next t) : fallThrough n p' = .next (v.of t) ∨ v.Loses t :=
  complete_agree (h.andThen fun _ u => .ok (u.pc + n) u) ht

/-- Instructions that neither read nor write the bank (spec/10_state.md rule R25). -/
def usesNoSlot (i : Instr) : Prop :=
  (∀ n, i ≠ .loadLocal n) ∧ (∀ n, i ≠ .storeLocal n) ∧ ∀ n d, i ≠ .incLocal n d

/-- An instruction does the same under a view, unless it raised a fault the view takes away. -/
theorem exec_view {i : Instr} {t : State} (hv : v.Sound) (hb : v.bank = none ∨ usesNoSlot i)
    (h : exec i s = .next t) : exec i (v.of s) = .next (v.of t) ∨ v.Loses t := by
  have slot : ∀ u : State, v.bank = none → ∀ (k : Fin numLocals) (w : Word),
      readLocal k (v.of u) = readLocal k u ∧
      writeLocal k w (v.of u) = v.of (writeLocal k w u) := by
    intro u hn k w
    constructor <;> simp [readLocal, writeLocal, State.setLocal, View.of, hn]
  cases i with
  | constZero => exact fallThrough_agree (agree_push hv 0 s) h
  | pushByte x => exact fallThrough_agree (agree_push hv _ s) h
  | loadLocal n =>
    have hn := hb.resolve_right fun c => c.1 n rfl
    refine fallThrough_agree ((agree_checkIndex v n s).andThen fun k u => ?_) h
    rw [(slot u hn k 0).1]
    exact agree_push hv _ u
  | storeLocal n =>
    have hn := hb.resolve_right fun c => c.2.1 n rfl
    refine fallThrough_agree ((agree_checkIndex v n s).andThen fun k u =>
      (agree_pop v u).andThen fun x w => ?_) h
    rw [(slot w hn k x).2]
    exact .ok () _
  | pop => exact fallThrough_agree ((agree_pop v s).andThen fun _ u => .ok () u) h
  | dup => exact fallThrough_agree ((agree_peek v s).andThen fun x u => agree_push hv x u) h
  | add => exact fallThrough_agree (agree_aluOp hv _ s) h
  | sub => exact fallThrough_agree (agree_aluOp hv _ s) h
  | mul => exact fallThrough_agree (agree_aluOp hv _ s) h
  | div => exact fallThrough_agree (agree_aluOp hv _ s) h
  | rem => exact fallThrough_agree (agree_aluOp hv _ s) h
  | shrArith => exact fallThrough_agree (agree_aluOp hv _ s) h
  | incLocal n d =>
    have hn := hb.resolve_right fun c => c.2.2 n d rfl
    refine fallThrough_agree ((agree_checkIndex v n s).andThen fun k u => ?_) h
    rw [(slot u hn k 0).1, (slot u hn k _).2]
    exact .ok () _
  | branchIfZero off =>
    refine complete_agree ((agree_pop v s).andThen fun x u => ?_) h
    by_cases hx : x = 0
    · simp only [isZero, hx, if_true]
      exact agree_branchTarget v off u
    · simp only [isZero, hx, if_false]
      exact .ok _ u
  | goto off => exact complete_agree (agree_branchTarget v off s) h
  | ret => exact fallThrough_agree (.ok () (haltOk s)) h
  | print => exact fallThrough_agree ((agree_peek v s).andThen fun x u => .ok () (emit x u)) h

/-- A step does the same under a view that leaves the bank, unless it raised a fault the view takes
away. -/
theorem step_view {t : State} (hv : v.Sound) (hb : v.bank = none) (h : step s = .next t) :
    step (v.of s) = .next (v.of t) ∨ v.Loses t := by
  by_cases hr : s.run = .running
  · by_cases hs : budgetSpent s
    · have h1 : step s = .next (faulted .timeout s) := by simp [step, hr, hs]
      rw [h1] at h
      cases h
      exact .inl (by simp only [step, View.of_run, hr, budgetSpent, View.of_instrBudget,
        View.of_icount, hs, if_true]; rfl)
    · rcases fetch_cases s with ⟨i, rest, hd, hf⟩ | hf | hf
      · have hf' : fetch (v.of s) = .ok i (v.of s) := by simp [fetch, hd]
        have h1 : step s = exec i s := by simp [step, hr, hs, hf]
        have h2 : step (v.of s) = exec i (v.of s) := by simp [step, hr, budgetSpent, hs, hf']
        rw [h1] at h
        rw [h2]
        exact exec_view hv (.inl hb) h
      all_goals
        have hf' : fetch (v.of s) = (fetch s).map v.of := by
          unfold fetch
          simp only [View.of_opcodeMap, View.of_prog, View.of_pc]
          split <;> rfl
        rw [hf] at hf'
        simp only [step, hr, hs, hf, if_false, raise, Host.Outcome.next.injEq] at h
        subst h
        left
        simp only [step, View.of_run, hr, budgetSpent, View.of_instrBudget, View.of_icount, hs, hf',
          if_false, raise, Phase.map]
  · rw [step_halted hr] at h
    cases h

end Sys2Proof.Machine
end

