-- ==== Sys2Proof/Tests/Slice0.lean ====
section
/-! SUPPORT. The model's own tests. Expected results are those of spec/95_test_vectors.md (named in the
test's comment) or are computed by hand from the rule; then, for each statement with hypotheses, a
concrete state that meets them. -/

open Sys2Proof Sys2Proof.Machine Sys2Proof.Claims

namespace Sys2Proof.Tests

/-! ### Helpers -/

/-- The 20 bytes of program P2 of spec/95_test_vectors.md. -/
def p2 : List Byte :=
  [0x10, 0x03, 0x36, 0x00, 0x15, 0x00, 0xbb, 0x57, 0x84, 0x00, 0xff, 0x15, 0x00, 0x99, 0x00, 0x06,
   0xa7, 0xff, 0xf4, 0xb1]

/-- A running engine over P2 with a given pc and stack (top first). -/
def at_ (pc : Nat) (stk : List Word) : State :=
  { State.initial Params.default (Memory.load p2) with pc := pc, stk := stk }

/-- A running engine over a given buffer. -/
def loaded (bytes : List Byte) : State := State.initial Params.default (Memory.load bytes)

/-- The same with a capacity. -/
def capped (c : Nat) (s : State) : State := withCapacity (some c) s

/-- The same with a budget. -/
def budgeted (b : Nat) (s : State) : State :=
  { s with params := { s.params with instrBudget := some b } }

/-- The same with `DIV_OVERFLOW_FAULT` set. -/
def trapping (s : State) : State :=
  { s with params := { s.params with divOverflowFault := true } }

/-- The next state, if there is one. -/
def nextOf (o : Host.Outcome State Fault Refusal) : Option State :=
  match o with
  | .next s => some s
  | .fault _ => none
  | .refused _ => none

/-- Stack, pc and run state after an outcome. -/
def shown (o : Host.Outcome State Fault Refusal) : Option (List Word × Nat × RunState) :=
  (nextOf o).map fun s => (s.stk, s.pc, s.run)

/-! ### Well-formedness: an ill-formed term for each check -/

theorem test_wf_push_byte_too_big : (Instr.pushByte 128).wellFormed = false := by decide
theorem test_wf_push_byte_too_small : (Instr.pushByte (-129)).wellFormed = false := by decide
theorem test_wf_load_index : (Instr.loadLocal 256).wellFormed = false := by decide
theorem test_wf_store_index : (Instr.storeLocal 256).wellFormed = false := by decide
theorem test_wf_inc_index : (Instr.incLocal 256 0).wellFormed = false := by decide
theorem test_wf_inc_delta : (Instr.incLocal 0 128).wellFormed = false := by decide
theorem test_wf_branch_offset : (Instr.branchIfZero 32768).wellFormed = false := by decide
theorem test_wf_goto_offset : (Instr.goto (-32769)).wellFormed = false := by decide
/-- An index above 9 is legal at decode (rule R75). -/
theorem test_wf_index_ten : (Instr.loadLocal 10).wellFormed = true := by decide
/-- A map that gives `pop` the byte of `add` is no opcode map (rule R11). -/
theorem test_opcode_map_not_injective : ¬{ OpcodeMap.default with pop := 0x60 }.Valid := by decide
/-- A listed zero byte, falling offsets and an offset outside the buffer are not canonical. -/
theorem test_memory_wf_refuses :
    Memory.wf { cells := [(0, 0x00)], size := 4 } = false ∧
    Memory.wf { cells := [(1, 0x60), (0, 0x60)], size := 4 } = false ∧
    Memory.wf { cells := [(4, 0x60)], size := 4 } = false := by decide

/-! ### Decoding: a word written out from rules R71 and R77 for every constructor -/

theorem test_decode_const_zero : decode .default [0x03] = .ok (.constZero, []) := by decide
theorem test_decode_push_byte : decode .default [0x10, 0xff] = .ok (.pushByte (-1), []) := by decide
theorem test_decode_load_local : decode .default [0x15, 0x09] = .ok (.loadLocal 9, []) := by decide
theorem test_decode_store_local : decode .default [0x36, 0x80] = .ok (.storeLocal 128, []) := by decide
theorem test_decode_pop : decode .default [0x57] = .ok (.pop, []) := by decide
theorem test_decode_dup : decode .default [0x59] = .ok (.dup, []) := by decide
theorem test_decode_add : decode .default [0x60] = .ok (.add, []) := by decide
theorem test_decode_sub : decode .default [0x64] = .ok (.sub, []) := by decide
theorem test_decode_mul : decode .default [0x68] = .ok (.mul, []) := by decide
theorem test_decode_div : decode .default [0x6c] = .ok (.div, []) := by decide
theorem test_decode_rem : decode .default [0x70] = .ok (.rem, []) := by decide
theorem test_decode_shr_arith : decode .default [0x7a] = .ok (.shrArith, []) := by decide
theorem test_decode_inc_local : decode .default [0x84, 0x03, 0x80] = .ok (.incLocal 3 (-128), []) := by
  decide
theorem test_decode_branch_if_zero : decode .default [0x99, 0x7f, 0xff] = .ok (.branchIfZero 32767, []) := by
  decide
theorem test_decode_goto : decode .default [0xa7, 0x80, 0x00, 0xb1] = .ok (.goto (-32768), [0xb1]) := by
  decide
theorem test_decode_return : decode .default [0xb1] = .ok (.ret, []) := by decide
theorem test_decode_print : decode .default [0xbb] = .ok (.print, []) := by decide

/-- Section 2.1 of the vectors: a cut immediate, an unknown byte, an unknown byte that is cut. -/
theorem test_decode_refuses :
    decode .default [0x99, 0x00] = .error (.truncated .branchIfZero) ∧
    decode .default [0x00] = .error (.unknownOpcode 0x00) ∧
    decode .default [0xff] = .error (.unknownOpcode 0xff) ∧
    decode .default [] = .error .noByte := by decide

/-- Rule R83: the source's own encoding. -/
theorem test_encode_source_example :
    [Instr.pushByte 5, .pushByte 3, .add, .print, .ret].flatMap (encode .default) =
      [0x10, 0x05, 0x10, 0x03, 0x60, 0xbb, 0xb1] := by decide

/-- Rule R11: another injective map moves `pop`, and the four source bytes stay. -/
theorem test_decode_other_map :
    decode { OpcodeMap.default with pop := 0x00 } [0x00] = .ok (.pop, []) ∧
    decode { OpcodeMap.default with pop := 0x00 } [0x57] = .error (.unknownOpcode 0x57) ∧
    decode { OpcodeMap.default with pop := 0x00 } [0x60] = .ok (.add, []) := by decide

/-! ### Instructions -/

theorem test_const_zero : shown (exec .constZero (at_ 0 [5])) = some ([0, 5], 1, .running) := by decide
/-- Section 2.2: const-zero at capacity. -/
theorem test_const_zero_full : shown (exec .constZero (capped 2 (at_ 4 [2, 1]))) =
    some ([2, 1], 4, .haltedFault .capacityExceeded) := by decide
theorem test_push_byte : shown (exec (.pushByte (-128)) (at_ 0 [])) =
    some ([0xffffff80], 2, .running) := by decide
theorem test_pop : shown (exec .pop (at_ 7 [9, 3])) = some ([3], 8, .running) := by decide
theorem test_pop_empty : shown (exec .pop (at_ 7 [])) =
    some ([], 7, .haltedFault .stackUnderflow) := by decide
theorem test_dup : shown (exec .dup (at_ 0 [-1])) = some ([-1, -1], 1, .running) := by decide
/-- Section 2.2: dup at capacity. -/
theorem test_dup_full : shown (exec .dup (capped 1 (at_ 2 [4]))) =
    some ([4], 2, .haltedFault .capacityExceeded) := by decide
/-- Section 2.3: `2147483647 + 1` wraps. -/
theorem test_add_wraps : shown (exec .add (at_ 0 [1, 0x7fffffff])) =
    some ([0x80000000], 1, .running) := by decide
/-- Section 2.3: ALU underflow loses the one operand. -/
theorem test_add_underflow : shown (exec .add (at_ 2 [5])) =
    some ([], 2, .haltedFault .stackUnderflow) := by decide
/-- Section 2.3: `3 - 10 = -7`. -/
theorem test_sub_order : shown (exec .sub (at_ 0 [10, 3])) = some ([-7], 1, .running) := by decide
/-- Section 2.3: `46341 * 46341 = -2147479015`. -/
theorem test_mul_wraps : shown (exec .mul (at_ 0 [46341, 46341])) =
    some ([BitVec.ofInt 32 (-2147479015)], 1, .running) := by decide
/-- Section 2.3: `-7 / 2 = -3`, toward zero. -/
theorem test_div_truncates : shown (exec .div (at_ 0 [2, -7])) = some ([-3], 1, .running) := by decide
/-- Section 2.3: `-2147483648 / -1`, for both values of the parameter. -/
theorem test_div_overflow :
    shown (exec .div (at_ 0 [-1, 0x80000000])) = some ([0x80000000], 1, .running) ∧
    shown (exec .div (trapping (at_ 0 [-1, 0x80000000]))) =
      some ([], 0, .haltedFault .divisionByZero) := by decide
/-- Section 2.3: `-7 rem 2 = -1` and `7 rem -2 = 1`. -/
theorem test_rem_sign :
    shown (exec .rem (at_ 0 [2, -7])) = some ([-1], 1, .running) ∧
    shown (exec .rem (at_ 0 [-2, 7])) = some ([1], 1, .running) := by decide
/-- W3: both operands popped. -/
theorem test_rem_by_zero : shown (exec .rem (at_ 3 [0, 7])) =
    some ([], 3, .haltedFault .divisionByZero) := by decide
/-- Section 2.3: `-7 >> 1 = -4`. -/
theorem test_shr_floors : shown (exec .shrArith (at_ 0 [1, -7])) = some ([-4], 1, .running) := by decide
/-- Section 2.3: amounts 33 and -1 act as 1 and 31. -/
theorem test_shr_masks_amount :
    shown (exec .shrArith (at_ 0 [33, 8])) = some ([4], 1, .running) ∧
    shown (exec .shrArith (at_ 0 [-1, 256])) = some ([0], 1, .running) := by decide
/-- Section 2.4: a fresh slot reads 0. -/
theorem test_load_local : shown (exec (.loadLocal 9) (at_ 0 [])) = some ([0], 2, .running) := by decide
/-- W4a. -/
theorem test_load_local_bad_index : shown (exec (.loadLocal 10) (at_ 0 [])) =
    some ([], 0, .haltedFault .invalidIndex) := by decide
/-- W6: storing -128 in slot 9. -/
theorem test_store_local : (nextOf (exec (.storeLocal 9) (at_ 2 [-128]))).map
    (fun s => (s.stk, s.pc, s.locals[9], s.locals[8])) = some ([], 4, -128, 0) := by decide
/-- Section 2.4: the index is checked before the pop. -/
theorem test_store_local_bad_index : shown (exec (.storeLocal 10) (at_ 0 [])) =
    some ([], 0, .haltedFault .invalidIndex) := by decide
/-- Section 2.4: wraps down, delta -128. -/
theorem test_inc_local_wraps : (nextOf (exec (.incLocal 3 (-128))
    ((at_ 8 []).setLocal 3 0x80000000))).map (fun s => (s.locals[3], s.pc)) =
      some (2147483520, 11) := by decide
/-- Section 2.5: taken, not taken, and the negative value that does not branch. -/
theorem test_branch :
    shown (exec (.branchIfZero 6) (at_ 13 [0])) = some ([], 19, .running) ∧
    shown (exec (.branchIfZero 6) (at_ 13 [5])) = some ([], 16, .running) ∧
    shown (exec (.branchIfZero 32767) (at_ 13 [-1])) = some ([], 16, .running) := by decide
/-- Section 2.5: target -1 and target `PROG_LEN`, after the pop. -/
theorem test_branch_outside :
    shown (exec (.branchIfZero (-14)) (at_ 13 [0])) =
      some ([], 13, .haltedFault .truncatedProgram) ∧
    shown (exec (.branchIfZero 7) (at_ 13 [0])) =
      some ([], 13, .haltedFault .truncatedProgram) := by decide
/-- Section 2.5: goto backward and to `PROG_LEN`. -/
theorem test_goto :
    shown (exec (.goto (-12)) (at_ 16 [])) = some ([], 4, .running) ∧
    shown (exec (.goto 4) (at_ 16 [])) = some ([], 16, .haltedFault .truncatedProgram) := by decide
/-- Section 2.5: return leaves stack and pc. -/
theorem test_return : shown (exec .ret (at_ 19 [2, 1])) = some ([2, 1], 19, .haltedOk) := by decide
/-- Rule R105: `return` is counted. -/
theorem test_return_counted :
    (nextOf (exec .ret (budgeted 3 (at_ 19 [])))).map (·.icount) = some 1 := by decide
/-- Section 2.6: print peeks. -/
theorem test_print : (nextOf (exec .print (at_ 6 [8]))).map (fun s => (s.out, s.stk, s.pc)) =
    some ([8], [8], 7) := by decide
theorem test_print_empty : (nextOf (exec .print (at_ 6 []))).map (fun s => (s.out, s.run)) =
    some ([], .haltedFault .stackUnderflow) := by decide

/-! ### Steps, ports, text -/

/-- Section 2.1: the empty program, and an unknown opcode before any length check. -/
theorem test_step_fetch_faults :
    shown (step (loaded [])) = some ([], 0, .haltedFault .truncatedProgram) ∧
    shown (step (loaded [0xff])) = some ([], 0, .haltedFault .unknownOpcode) ∧
    shown (step (loaded [0x84, 0x00])) = some ([], 0, .haltedFault .truncatedProgram) := by decide
/-- Section 2.7: budget 0. -/
theorem test_step_budget_zero :
    shown (step (budgeted 0 (loaded [0xb1]))) = some ([], 0, .haltedFault .timeout) := by decide
/-- A step over P2 at its `goto`. -/
theorem test_step_goto : shown (step (at_ 16 [])) = some ([], 4, .running) := by decide
/-- Rules R42, R78 and R101: what a step presents on the read port. -/
theorem test_port_reads :
    portReads (at_ 16 []) = [16, 17, 18] ∧ portReads (at_ 20 []) = [] ∧
    portReads (loaded [0xff, 0x60]) = [0] ∧ portReads (loaded [0x10]) = [0] := by decide
/-- The table's numbering: the opcode is the low byte, and absent operand bits are 0. -/
theorem test_table_word :
    decodeTableWord 8 0x84 = some (.incLocal 0 0) ∧
    decodeTableWord 24 0xf4ffa7 = some (.goto (-12)) ∧
    decodeTableWord 8 0x00 = none := by decide
theorem test_with_fetch_word :
    shown (step (State.reset.withFetchWord 16 0x0510)) = some ([5], 2, .running) := by decide
/-- Rule R222 and section 2.6: 0, -5, -2147483648 and 2147483647. -/
theorem test_render :
    render 0 = [0x30, 0x0a] ∧ render (-5) = [0x2d, 0x35, 0x0a] ∧
    render 0x80000000 = [0x2d, 0x32, 0x31, 0x34, 0x37, 0x34, 0x38, 0x33, 0x36, 0x34, 0x38, 0x0a] ∧
    render 0x7fffffff = [0x32, 0x31, 0x34, 0x37, 0x34, 0x38, 0x33, 0x36, 0x34, 0x37, 0x0a] := by decide
/-- A program longer than `PROG_MAX` is refused (U12). -/
theorem test_start_too_long :
    start [0x03, 0xb1] { State.reset with params := { Params.default with progMax := 1 } } =
      .refused .programTooLong := rfl
/-- Rule R81, with labels and a comment: the loop of W8 behind a jump. -/
theorem test_assemble :
    assembleText .default "goto a ; on\na: goto a".toList =
      some [0xa7, 0x00, 0x03, 0xa7, 0x00, 0x00] := by decide
/-- Rule R81: a value out of range is refused, an index above 9 is not. -/
theorem test_assemble_ranges :
    assembleText .default "push-byte 128".toList = none ∧
    assembleText .default "load-local 10".toList = some [0x15, 0x0a] ∧
    assembleText .default "inc-local 0, -1".toList = some [0x84, 0x00, 0xff] := by decide

/-! ### Witnesses: for each statement with hypotheses, states and operands that meet them, one for each
clause, at a boundary where there is one -/

theorem witness_ConstZeroPushesZero :
    ((at_ 0 []).run = .running ∧ hasRoom (capped 1 (at_ 0 []))) ∧
    ((capped 1 (at_ 0 [7])).run = .running ∧
      (capped 1 (at_ 0 [7])).params.stackCapacity = some (capped 1 (at_ 0 [7])).stk.length) := by decide

theorem witness_PopDiscardsTop :
    ((at_ 0 []).run = .running ∧ (at_ 0 []).stk = []) ∧
    ((at_ 0 [7]).run = .running ∧ (at_ 0 [7]).stk = 7 :: []) := by decide

theorem witness_DupDuplicatesTop :
    ((at_ 0 []).run = .running ∧ (at_ 0 []).stk = []) ∧
    ((capped 2 (at_ 0 [7])).run = .running ∧ (capped 2 (at_ 0 [7])).stk = 7 :: [] ∧
      hasRoom (capped 2 (at_ 0 [7]))) ∧
    ((capped 1 (at_ 0 [7])).stk = 7 :: [] ∧
      (capped 1 (at_ 0 [7])).params.stackCapacity = some (capped 1 (at_ 0 [7])).stk.length) := by decide

/-- Both ends of the byte's range, and an opcode that is the buffer's last byte. -/
theorem witness_PushBytePushesSignedByte :
    ((Instr.pushByte (-128)).wellFormed = true ∧ (Instr.pushByte 127).wellFormed = true ∧
      (at_ 0 []).run = .running ∧ hasRoom (capped 1 (at_ 0 []))) ∧
    ((capped 0 (at_ 0 [])).params.stackCapacity = some (capped 0 (at_ 0 [])).stk.length) ∧
    ((loaded [0x10]).run = .running ∧ (loaded [0x10]).params.instrBudget ≠ some (loaded [0x10]).icount ∧
      (loaded [0x10]).params.opcodeMap.Valid ∧
      (loaded [0x10]).prog.read (loaded [0x10]).pc =
        some ((loaded [0x10]).params.opcodeMap.byteOf .pushByte) ∧
      (loaded [0x10]).prog.size < (loaded [0x10]).pc + 2) := by decide

/-- The premises of `underflowsBelowTwo` and `replacesTopTwo`, which all six ALU statements share. -/
theorem witness_AluOperands :
    ((at_ 0 []).run = .running ∧ (at_ 0 []).stk = [] ∧ (at_ 0 [7]).stk = [7]) ∧
    ((capped 2 (at_ 0 [1, 7])).run = .running ∧ withinCapacity (capped 2 (at_ 0 [1, 7])) ∧
      (capped 2 (at_ 0 [1, 7])).stk = 1 :: 7 :: []) :=
  ⟨by decide, rfl, Nat.le_refl 2, rfl⟩

theorem witness_AddWrapsTheSum :
    (at_ 0 [1, 0x7fffffff]).run = .running ∧ withinCapacity (at_ 0 [1, 0x7fffffff]) ∧
      (at_ 0 [1, 0x7fffffff]).stk = 1 :: 0x7fffffff :: [] := ⟨rfl, trivial, rfl⟩

theorem witness_SubWrapsTheDifference :
    (at_ 0 [1, 0x80000000]).run = .running ∧ withinCapacity (at_ 0 [1, 0x80000000]) ∧
      (at_ 0 [1, 0x80000000]).stk = 1 :: 0x80000000 :: [] := ⟨rfl, trivial, rfl⟩

theorem witness_MulWrapsTheProduct :
    (at_ 0 [65536, 65536]).run = .running ∧ withinCapacity (at_ 0 [65536, 65536]) ∧
      (at_ 0 [65536, 65536]).stk = 65536 :: 65536 :: [] := ⟨rfl, trivial, rfl⟩

/-- A zero divisor, the overflowing pair with and without the parameter, and an ordinary pair. -/
theorem witness_DivTruncatesTowardZero :
    ((at_ 0 [0, 7]).run = .running ∧ (at_ 0 [0, 7]).stk = 0 :: 7 :: []) ∧
    ((0x80000000 : Word).toInt = -2147483648 ∧ (-1 : Word).toInt = -1 ∧
      (trapping (at_ 0 [-1, 0x80000000])).params.divOverflowFault = true) ∧
    (divides (at_ 0 [-1, 0x80000000]) 0x80000000 (-1) ∧
      divides (trapping (at_ 0 [2, -7])) (-7) 2) ∧
    withinCapacity (at_ 0 [-1, 0x80000000]) :=
  ⟨by decide, by decide, by decide, trivial⟩

/-- The same states meet the hypotheses of the statement about `rem`. -/
theorem witness_RemFollowsTruncatingDivision :
    ((at_ 0 [0, 7]).run = .running ∧ (at_ 0 [0, 7]).stk = 0 :: 7 :: []) ∧
    ((trapping (at_ 0 [-1, 0x80000000])).stk = -1 :: 0x80000000 :: [] ∧
      (trapping (at_ 0 [-1, 0x80000000])).params.divOverflowFault = true) ∧
    divides (at_ 0 [-2, 7]) 7 (-2) ∧ withinCapacity (at_ 0 [-2, 7]) :=
  ⟨by decide, by decide, by decide, trivial⟩

theorem witness_ShrArithFloorsTheQuotient :
    (at_ 0 [31, 0x80000000]).run = .running ∧ withinCapacity (at_ 0 [31, 0x80000000]) ∧
      (at_ 0 [31, 0x80000000]).stk = 31 :: 0x80000000 :: [] := ⟨rfl, trivial, rfl⟩

/-- Slot 9 with room and without, and index 10. -/
theorem witness_LoadLocalPushesTheSlot :
    ((at_ 0 []).run = .running ∧ hasRoom (capped 1 (at_ 0 [])) ∧ ((9 : Fin 10) : Nat) = 9) ∧
    ((capped 0 (at_ 0 [])).params.stackCapacity = some (capped 0 (at_ 0 [])).stk.length) ∧
    9 < 10 ∧
    ((loaded [0x15]).prog.read 0 = some ((loaded [0x15]).params.opcodeMap.byteOf .loadLocal) ∧
      (loaded [0x15]).prog.size < 0 + 2) := by decide

/-- Slot 9 with a value and with an empty stack, another slot, and index 10. -/
theorem witness_StoreLocalWritesTheSlot :
    ((at_ 0 [7]).run = .running ∧ (at_ 0 [7]).stk = 7 :: [] ∧ (8 : Fin 10) ≠ 9) ∧
    (at_ 0 []).stk = [] ∧ 9 < 10 ∧
    ((loaded [0x36]).prog.read 0 = some ((loaded [0x36]).params.opcodeMap.byteOf .storeLocal) ∧
      (loaded [0x36]).prog.size < 0 + 2) ∧
    withinCapacity (at_ 0 [7]) :=
  ⟨by decide, by decide, by decide, by decide, trivial⟩

theorem witness_IncLocalAddsTheDelta :
    ((at_ 8 []).run = .running ∧ (8 : Fin 10) ≠ 9) ∧ 9 < 10 ∧
    ((loaded [0x84, 0x00]).prog.read 0 = some ((loaded [0x84, 0x00]).params.opcodeMap.byteOf .incLocal) ∧
      (loaded [0x84, 0x00]).prog.size < 0 + 3) := by decide

/-- An untaken branch, taken to offset 0 and to the last offset, targets -1 and `PROG_LEN`. -/
theorem witness_BranchIfZeroTestsThePoppedValue :
    ((at_ 13 [5]).run = .running ∧ (at_ 13 [5]).stk = 5 :: [] ∧ (5 : Word) ≠ 0) ∧
    ((at_ 13 [0]).stk = 0 :: [] ∧ ((0 : Nat) : Int) = ((at_ 13 [0]).pc : Int) + (-13) ∧
      ((19 : Nat) : Int) = ((at_ 13 [0]).pc : Int) + 6 ∧ 19 < (at_ 13 [0]).prog.size) ∧
    (((at_ 13 [0]).pc : Int) + (-14) < 0 ∧
      ((at_ 13 [0]).prog.size : Int) ≤ ((at_ 13 [0]).pc : Int) + 7) ∧
    ((at_ 13 []).run = .running ∧ (at_ 13 []).stk = []) ∧
    ((loaded [0x99, 0x00]).prog.read 0 =
      some ((loaded [0x99, 0x00]).params.opcodeMap.byteOf .branchIfZero) ∧
      (loaded [0x99, 0x00]).prog.size < 0 + 3) := by decide

theorem witness_GotoJumpsRelativeToItsOpcode :
    ((at_ 16 []).run = .running ∧ ((0 : Nat) : Int) = ((at_ 16 []).pc : Int) + (-16) ∧
      ((19 : Nat) : Int) = ((at_ 16 []).pc : Int) + 3 ∧ 19 < (at_ 16 []).prog.size) ∧
    (((at_ 16 []).pc : Int) + (-17) < 0 ∧
      ((at_ 16 []).prog.size : Int) ≤ ((at_ 16 []).pc : Int) + 4) ∧
    ((loaded [0xa7, 0x00]).prog.read 0 = some ((loaded [0xa7, 0x00]).params.opcodeMap.byteOf .goto) ∧
      (loaded [0xa7, 0x00]).prog.size < 0 + 3) := by decide

theorem witness_ReturnHaltsWithStatusZero :
    (at_ 19 [2, 1]).run = .running ∧
    exec .ret (at_ 19 [2, 1]) = .next { at_ 19 [2, 1] with run := .haltedOk } := ⟨rfl, rfl⟩

theorem witness_PrintEmitsTopWithoutPopping :
    ((at_ 6 []).run = .running ∧ (at_ 6 []).stk = []) ∧
    ((at_ 6 [8]).run = .running ∧ (at_ 6 [8]).stk = 8 :: []) := by decide

/-- Every field at an end of its range. -/
theorem witness_DecodingAnEncodedInstructionGivesItBack :
    OpcodeMap.default.Valid ∧ (Instr.incLocal 255 (-128)).wellFormed = true ∧
    (Instr.goto (-32768)).wellFormed = true ∧ (Instr.branchIfZero 32767).wellFormed = true ∧
    { OpcodeMap.default with pop := 0x00 }.Valid := by decide

theorem witness_DecodedBytesAreTheEncoding :
    decode .default [0x99, 0xff, 0xff, 0xb1] = .ok (.branchIfZero (-1), [0xb1]) := by decide

theorem witness_UnassignedBytesAreUnknownOpcodes :
    (loaded [0x04]).run = .running ∧ (loaded [0x04]).params.instrBudget ≠ some (loaded [0x04]).icount ∧
    (loaded [0x04]).params.opcodeMap = .default ∧ (loaded [0x04]).prog.read (loaded [0x04]).pc = some 0x04 ∧
    opcodeAt .default 0x04 = none := by decide

/-- A label in reach, at either end of the range, and one beyond it. -/
theorem witness_AssembledGotoReachesItsLabel :
    OpcodeMap.default.Valid ∧ List.lookup "a".toList [("a".toList, 4)] = some 4 ∧
    (-32768 ≤ ((4 : Nat) : Int) - (16 : Nat) ∧ ((4 : Nat) : Int) - (16 : Nat) ≤ 32767) ∧
    32767 < ((32768 : Nat) : Int) - (0 : Nat) ∧
    ((at_ 16 []).run = .running ∧ (at_ 16 []).pc = 16 ∧ 4 < (at_ 16 []).prog.size) := by decide

theorem witness_StepRunsTheDecodedInstruction :
    (at_ 19 []).run = .running ∧ (at_ 19 []).params.instrBudget ≠ some (at_ 19 []).icount ∧
    decode (at_ 19 []).params.opcodeMap ((at_ 19 []).prog.window (at_ 19 []).pc) = .ok (.ret, []) := by
  decide

theorem witness_StepExecutesTheInstructionStandingAtThePc :
    (at_ 16 []).run = .running ∧ (at_ 16 []).params.instrBudget ≠ some (at_ 16 []).icount ∧
    (at_ 16 []).params.opcodeMap.Valid ∧ (Instr.goto (-12)).wellFormed = true ∧
    standsAtPc (at_ 16 []) (encode (at_ 16 []).params.opcodeMap (.goto (-12))) := by
  refine ⟨rfl, by decide, by decide, by decide, ?_⟩
  unfold standsAtPc
  decide

theorem witness_StepIsEnabledExactlyWhenRunning :
    (at_ 0 []).run = .running ∧ (haltOk (at_ 0 [])).run ≠ .running := by decide

/-- The budget used up, the pc at `PROG_LEN`, and the pc at the last byte. -/
theorem witness_FetchChecksBudgetThenBound :
    ((budgeted 0 (at_ 20 [])).run = .running ∧
      (budgeted 0 (at_ 20 [])).params.instrBudget = some (budgeted 0 (at_ 20 [])).icount) ∧
    ((at_ 20 []).params.instrBudget ≠ some (at_ 20 []).icount ∧
      (at_ 20 []).prog.size ≤ (at_ 20 []).pc) ∧
    ((at_ 19 []).params.instrBudget ≠ some (at_ 19 []).icount ∧
      (at_ 19 []).pc < (at_ 19 []).prog.size) := by decide

/-- An unknown byte, an opcode cut by one byte, and an opcode that just fits. -/
theorem witness_DecodeChecksOpcodeThenImmediates :
    ((loaded [0xff]).run = .running ∧ (loaded [0xff]).params.instrBudget ≠ some (loaded [0xff]).icount ∧
      (loaded [0xff]).params.opcodeMap.Valid ∧ (loaded [0xff]).prog.read (loaded [0xff]).pc = some 0xff ∧
      ∀ op, (loaded [0xff]).params.opcodeMap.byteOf op ≠ 0xff) ∧
    ((loaded [0x84, 0x00]).params.opcodeMap.byteOf .incLocal = 0x84 ∧
      (loaded [0x84, 0x00]).prog.size < (loaded [0x84, 0x00]).pc + Opcode.length .incLocal) ∧
    ((loaded [0x84, 0x00, 0x00]).params.opcodeMap.byteOf .incLocal = 0x84 ∧
      (loaded [0x84, 0x00, 0x00]).pc + Opcode.length .incLocal ≤ (loaded [0x84, 0x00, 0x00]).prog.size) := by
  refine ⟨⟨rfl, by decide, by decide, by decide, ?_⟩, by decide, by decide⟩
  exact opcodeAt_eq_none_iff.mp (by decide)

/-- A halt, a fall-through and a taken branch. -/
theorem witness_PcAdvancesByTheBytesConsumed :
    ((at_ 19 []).run = .running ∧ exec .ret (at_ 19 []) = .next (haltOk (at_ 19 [])) ∧
      (haltOk (at_ 19 [])).run ≠ .running) ∧
    (exec (.pushByte 0) (at_ 0 []) = .next (at_ 2 [0]) ∧ (at_ 2 [0]).run = .running) ∧
    exec (.goto (-12)) (at_ 16 []) = .next (at_ 4 []) :=
  ⟨⟨rfl, rfl, by decide⟩, ⟨rfl, rfl⟩, rfl⟩

/-- A fault, and a completion with and without a budget. -/
theorem witness_CounterCountsCompletedInstructions :
    ((at_ 7 []).run = .running ∧ exec .pop (at_ 7 []) = .next (faulted .stackUnderflow (at_ 7 []))) ∧
    (exec .pop (at_ 7 [1]) = .next (at_ 8 []) ∧ (at_ 7 [1]).params.instrBudget = none) ∧
    (exec .pop (budgeted 1 (at_ 7 [1])) = .next ((budgeted 1 (at_ 8 [])).setIcount 1) ∧
      (budgeted 1 (at_ 7 [1])).params.instrBudget = some 1) :=
  ⟨⟨rfl, rfl⟩, ⟨rfl, rfl⟩, ⟨rfl, rfl⟩⟩

theorem witness_FaultFreezesEverythingButPops :
    (at_ 7 []).run = .running ∧ step (at_ 7 []) = .next (faulted .stackUnderflow (at_ 7 [])) ∧
    (faulted .stackUnderflow (at_ 7 [])).run = .haltedFault .stackUnderflow := ⟨rfl, rfl, rfl⟩

theorem witness_InstructionsRaiseOnlyTheirListedFaults :
    (at_ 7 []).run = .running ∧ withinCapacity (at_ 7 []) ∧
    exec .pop (at_ 7 []) = .next (faulted .stackUnderflow (at_ 7 [])) ∧
    (faulted .stackUnderflow (at_ 7 [])).run = .haltedFault .stackUnderflow :=
  ⟨rfl, trivial, rfl, rfl⟩

theorem witness_InstructionFaultsFollowTheirOrder :
    (at_ 13 []).run = .running ∧ 9 < 10 ∧ (at_ 13 []).stk = [] ∧
    (capped 0 (at_ 13 [])).params.stackCapacity = some (capped 0 (at_ 13 [])).stk.length ∧
    (at_ 13 [0]).stk = [0] ∧ ¬targetInside 7 (at_ 13 []) := by decide

/-- An instruction whose conditions hold and one whose conditions do not. -/
theorem witness_InstructionRunsCleanExactlyUnderItsConditions :
    (at_ 7 [1]).run = .running ∧ withinCapacity (at_ 7 [1]) ∧ mayExecute .pop (at_ 7 [1]) ∧
    ¬mayExecute .pop (at_ 7 []) :=
  ⟨rfl, trivial, Nat.le_refl 1, by simp [mayExecute, at_]⟩

theorem witness_OnlyReturnGivesStatusZero :
    (at_ 19 []).run = .running ∧ step (at_ 19 []) = .next (haltOk (at_ 19 [])) ∧
    (haltOk (at_ 19 [])).run = .haltedOk ∧
    (at_ 19 []).params.instrBudget ≠ some (at_ 19 []).icount ∧
    decode (at_ 19 []).params.opcodeMap ((at_ 19 []).prog.window (at_ 19 []).pc) = .ok (.ret, []) :=
  ⟨rfl, rfl, rfl, by decide, by decide⟩

/-- The counter at the budget, below it, and no budget. -/
theorem witness_BudgetedRunHalts :
    ((budgeted 0 (at_ 16 [])).run = .running ∧
      (budgeted 0 (at_ 16 [])).params.instrBudget = some (budgeted 0 (at_ 16 [])).icount) ∧
    ((budgeted 5 (at_ 16 [])).run = .running ∧ (budgeted 5 (at_ 16 [])).params.instrBudget = some 5 ∧
      (budgeted 5 (at_ 16 [])).icount ≤ 5) ∧
    ((at_ 16 []).params.instrBudget = none ∧ step (at_ 16 []) = .next (at_ 4 [])) :=
  ⟨by decide, by decide, rfl, rfl⟩

theorem witness_GotoItselfNeverHalts :
    (loaded [0xa7, 0x00, 0x00]).run = .running ∧ (loaded [0xa7, 0x00, 0x00]).params.instrBudget = none ∧
    (loaded [0xa7, 0x00, 0x00]).params.opcodeMap.Valid ∧
    standsAtPc (loaded [0xa7, 0x00, 0x00])
      (encode (loaded [0xa7, 0x00, 0x00]).params.opcodeMap (.goto 0)) := by
  refine ⟨rfl, rfl, by decide, ?_⟩
  unfold standsAtPc
  decide

theorem witness_InstructionsLeaveEveryProgramByte :
    exec (.goto (-12)) (at_ 16 []) = .next (at_ 4 []) := rfl

/-- An instruction that emits nothing, `print` with a value and `print` on an empty stack. -/
theorem witness_OnlyPrintExtendsTheOutput :
    (exec .pop (at_ 7 [1]) = .next (at_ 8 []) ∧ Instr.pop ≠ .print) ∧
    (exec .print (at_ 6 [8]) = .next { at_ 7 [8] with out := [8] } ∧ (at_ 6 [8]).stk = 8 :: []) ∧
    (exec .print (at_ 6 []) = .next (faulted .stackUnderflow (at_ 6 [])) ∧ (at_ 6 []).stk = []) :=
  ⟨⟨rfl, by decide⟩, ⟨rfl, rfl⟩, ⟨rfl, rfl⟩⟩

theorem witness_SlotsChangeOnlyByTheirOwnStores :
    exec (.storeLocal 9) (at_ 2 [7]) = .next ((at_ 4 []).setLocal 9 7) ∧
    ((at_ 4 []).setLocal 9 7).locals[(9 : Fin 10)] ≠ (at_ 2 [7]).locals[(9 : Fin 10)] :=
  ⟨rfl, by decide⟩

theorem witness_OtherInstructionsNeverReadTheBank :
    (∀ n, Instr.pop ≠ .loadLocal n) ∧ (∀ n, Instr.pop ≠ .storeLocal n) ∧
    (∀ n d, Instr.pop ≠ .incLocal n d) ∧ exec .pop (at_ 7 [1]) = .next (at_ 8 []) :=
  ⟨by simp, by simp, by simp, rfl⟩

theorem witness_DeepStackIsNeitherReadNorWritten :
    (at_ 0 [1, 7]).params.stackCapacity = none ∧ exec .add (at_ 0 [1, 7]) = .next (at_ 1 [8]) ∧
    (at_ 1 [8]).run ≠ .haltedFault .stackUnderflow := ⟨rfl, rfl, by decide⟩

theorem witness_RunsKeepTheProgramAndExtendTheOutput :
    Host.Core.run core 1 (at_ 6 [8]) = .next { at_ 7 [8] with out := [8] } := rfl

theorem witness_PcWidthIsNeverObservable :
    step (at_ 16 []) = .next (at_ 4 []) ∧ step (haltOk (at_ 16 [])) = .fault .notRunning := ⟨rfl, rfl⟩

theorem witness_BoundedStackRefinesUnbounded :
    (capped 1 (at_ 16 [7])).params.stackCapacity = some 1 ∧ (capped 1 (at_ 16 [7])).stk.length ≤ 1 ∧
    Host.Core.run core 1 (capped 1 (at_ 16 [7])) = .next (capped 1 (at_ 4 [7])) ∧
    (capped 1 (at_ 4 [7])).run ≠ .haltedFault .capacityExceeded := ⟨rfl, by decide, rfl, by decide⟩

theorem params_default_valid : Params.default.Valid := ⟨OpcodeMap.default_valid, by decide⟩

theorem witness_StepKeepsTheInvariant :
    (capped 1 (budgeted 1 (at_ 16 [7]))).Inv ∧
    step (capped 1 (budgeted 1 (at_ 16 [7]))) =
      .next ((capped 1 (budgeted 1 (at_ 4 [7]))).setIcount 1) :=
  ⟨⟨⟨OpcodeMap.default_valid, by decide⟩, by decide, by decide, by decide, Nat.le_refl 1,
    Nat.zero_le 1⟩, rfl⟩

theorem witness_StartMeetsTheInvariant :
    State.reset.params.Valid ∧ start p2 State.reset = .next (at_ 0 []) := ⟨params_default_valid, rfl⟩

theorem witness_PcFitsItsRegister : (at_ 20 []).Inv :=
  ⟨params_default_valid, by decide, by decide, by decide, trivial, rfl⟩

/-- A program of exactly `PROG_MAX` bytes and one of one byte more. -/
theorem witness_StartResetsEverythingAndBindsTheProgram :
    [(0x03 : Byte), 0xb1].length ≤ { Params.default with progMax := 2 }.progMax ∧
    { Params.default with progMax := 1 }.progMax < [(0x03 : Byte), 0xb1].length := by decide

theorem witness_EmptyProgramTruncatesAtOnce : State.reset.params.instrBudget ≠ some 0 := by decide

theorem witness_OutputsFollowTheRunState :
    (at_ 0 []).run = .running ∧ (haltOk (at_ 0 [])).run = .haltedOk ∧
    (faulted .timeout (at_ 0 [])).run = .haltedFault .timeout := ⟨rfl, rfl, rfl⟩

/-- The last offset of the buffer is presented. -/
theorem witness_PortReadsStayInsideTheProgram :
    start p2 State.reset = .next (at_ 0 []) ∧ 19 ∈ portReads (at_ 19 []) ∧
    step (at_ 16 []) = .next (at_ 4 []) := ⟨rfl, by decide, rfl⟩

theorem witness_EventsAreDeliveredInOrder :
    sessionStep { engine := at_ 6 [8], delivered := [1] } =
      .next { engine := { at_ 7 [8] with out := [8] }, delivered := [1, 8] } := rfl

theorem witness_WrappedValueIsUnique : wraps (i32 2147483648) 2147483648 := ⟨-1, by decide⟩

theorem witness_DivisionLaw : (-1 : Word) ≠ 0 := by decide

end Sys2Proof.Tests
end

section
/-! SUPPORT. Reset values, the outputs of the run state, and the program read port
(spec/10_state.md). -/

namespace Sys2Proof.Machine

variable {s t : State}

/-! ### Reset and start -/

@[simp] theorem State.initial_locals (p : Params) (m : Memory) (k : Fin numLocals) :
    (State.initial p m).locals[k] = 0 := by
  simp [State.initial]

/-- A start that is not refused answers the start state over the loaded bytes (rules R8 and R41). -/
theorem start_eq_next_iff {bytes : List Byte} :
    start bytes s = .next t ↔
      bytes.length ≤ s.params.progMax ∧ t = State.initial s.params (Memory.load bytes) := by
  unfold start
  split
  · next h => simp [h, eq_comm]
  · next h => simp [h]

/-- Settles O50, field by field of the start state. -/
theorem resetValues : Obligations.ResetValues :=
  ⟨rfl, rfl, State.initial_locals _ _, rfl, rfl, rfl, rfl, rfl⟩

/-! ### The outputs -/

theorem halted_iff : s.halted = true ↔ s.run ≠ .running := by
  unfold State.halted
  cases s.run <;> simp

theorem outputs_of_running (h : s.run = .running) : s.status = none ∧ s.faultCode = none := by
  simp [State.status, State.faultCode, h]

theorem outputs_of_haltedOk (h : s.run = .haltedOk) : s.status = some 0 ∧ s.faultCode = none := by
  simp [State.status, State.faultCode, h]

theorem outputs_of_haltedFault {kind : FaultKind} (h : s.run = .haltedFault kind) :
    s.status = some 1 ∧ s.faultCode = some kind.code := by
  simp [State.status, State.faultCode, h]

/-- Settles O53, one run state at a time; the fault codes are compared kind by kind. -/
theorem outputsFollowTheRunState : Obligations.OutputsFollowTheRunState := by
  intro s
  refine ⟨halted_iff, outputs_of_running, outputs_of_haltedOk, fun kind h => ?_⟩
  obtain ⟨hstatus, hcode⟩ := outputs_of_haltedFault h
  exact ⟨hstatus, by rw [hcode]; cases kind <;> rfl⟩

/-! ### What a step leaves of the program buffer -/

/-- No instruction writes the program buffer (rule R51). -/
theorem exec_prog {i : Instr} (h : exec i s = .next t) : t.prog = s.prog := by
  rcases exec_cases i s with ⟨kind, popped, rest, -, -, -, he⟩ | ⟨next, u, hu, he⟩ <;>
    obtain rfl := Host.Outcome.next.inj (h.symm.trans he)
  · simp
  · simp [hu.prog]

/-- Only a running engine has a step (rule R100). -/
theorem running_of_step (h : step s = .next t) : s.run = .running := by
  by_contra hr
  simp [step_halted hr] at h

/-- No step writes the program buffer (rule R51). -/
theorem step_prog (h : step s = .next t) : t.prog = s.prog := by
  rcases step_running (running_of_step h) with
    ⟨-, he⟩ | ⟨-, he | he⟩ | ⟨-, i, rest, -, he⟩ <;> rw [he] at h
  case inr.inr => exact exec_prog h
  all_goals
    obtain rfl := Host.Outcome.next.inj h
    exact faulted_prog ..

/-! ### The program read port -/

/-- A step presents nothing, or the pc alone, or the consecutive offsets of one instruction; each lies
inside the buffer (rules R42, R101 and R102). -/
theorem portReads_cases (s : State) :
    portReads s = [] ∨ (portReads s = [s.pc] ∧ s.pc < s.prog.size) ∨
    ∃ n, portReads s = (List.range n).map (s.pc + ·) ∧ s.pc + n ≤ s.prog.size := by
  unfold portReads
  split
  · exact .inl rfl
  · exact .inl rfl
  split
  · exact .inl rfl
  split
  · exact .inl rfl
  next hread =>
  have hpc := Memory.lt_of_read hread
  split
  · exact .inr (.inl ⟨rfl, hpc⟩)
  split
  · exact .inr (.inl ⟨rfl, hpc⟩)
  · next hin => exact .inr (.inr ⟨_, rfl, Nat.not_lt.mp hin⟩)

theorem lt_size_of_mem_portReads {a : Nat} (ha : a ∈ portReads s) : a < s.prog.size := by
  rcases portReads_cases s with he | ⟨he, hpc⟩ | ⟨n, he, hin⟩ <;> rw [he] at ha
  · cases ha
  · exact List.mem_singleton.mp ha ▸ hpc
  · obtain ⟨k, hk, rfl⟩ := List.mem_map.mp ha
    have := List.mem_range.mp hk
    omega

/-- Settles O54: the loaded buffer answers the loaded bytes, every presented offset is bounds-checked,
and a step leaves the buffer as it was. -/
theorem portReadsStayInsideTheProgram : Obligations.PortReadsStayInsideTheProgram := by
  refine ⟨fun bytes s t h a => ?_, fun s a ha => ?_, fun s t h a => ?_⟩
  · obtain ⟨-, rfl⟩ := start_eq_next_iff.mp h
    exact Memory.read_load bytes a
  · have hlt := lt_size_of_mem_portReads ha
    exact ⟨hlt, _, Memory.read_of_lt hlt⟩
  · rw [step_prog h]

end Sys2Proof.Machine
end

section
/-! SUPPORT. The program buffer, the parameters and the output along a run (spec/20_memory.md). -/

namespace Sys2Proof.Machine

variable {s t : State}

/-! ### What a step leaves of the parameters and adds to the output -/

/-- A step that answers a next state records a fault of its own or is one instruction. -/
theorem step_next_cases (h : step s = .next t) :
    (∃ kind, t = faulted kind s) ∨
    ∃ i rest, decode s.params.opcodeMap (s.prog.window s.pc) = .ok (i, rest) ∧
      exec i s = .next t := by
  rcases step_running (running_of_step h) with
    ⟨-, he⟩ | ⟨-, he | he⟩ | ⟨-, i, rest, hd, he⟩ <;> rw [he] at h
  case inr.inr => exact .inr ⟨i, rest, hd, h⟩
  all_goals exact .inl ⟨_, (Host.Outcome.next.inj h).symm⟩

/-- No instruction changes the parameters (rule R21). -/
theorem exec_params {i : Instr} (h : exec i s = .next t) : t.params = s.params := by
  rcases exec_cases i s with ⟨kind, popped, rest, -, -, -, he⟩ | ⟨next, u, hu, he⟩ <;>
    obtain rfl := Host.Outcome.next.inj (h.symm.trans he)
  · simp
  · simp [hu.params]

/-- No step changes the parameters (rule R21). -/
theorem step_params (h : step s = .next t) : t.params = s.params := by
  obtain ⟨kind, rfl⟩ | ⟨i, -, -, he⟩ := step_next_cases h
  · exact faulted_params kind
  · exact exec_params he

/-- An instruction appends at most one event to the output (rule R34). -/
theorem exec_out {i : Instr} (h : exec i s = .next t) :
    ∃ events, events.length ≤ 1 ∧ t.out = s.out ++ events := by
  rcases exec_cases i s with ⟨kind, popped, rest, -, -, -, he⟩ | ⟨next, u, hu, he⟩ <;>
    obtain rfl := Host.Outcome.next.inj (h.symm.trans he)
  · exact ⟨[], by simp⟩
  · obtain hout | ⟨-, x, -, -, hout⟩ := hu.out
    · exact ⟨[], by simp [hout]⟩
    · exact ⟨[x], by simp [hout]⟩

/-- A step appends at most one event to the output (rule R34). -/
theorem step_out (h : step s = .next t) :
    ∃ events, events.length ≤ 1 ∧ t.out = s.out ++ events := by
  obtain ⟨kind, rfl⟩ | ⟨i, -, -, he⟩ := step_next_cases h
  · exact ⟨[], by simp⟩
  · exact exec_out he

/-! ### Along a run -/

/-- Every instruction answers a next state: an engine fault is one too (rule R235). -/
theorem exec_next (i : Instr) (s : State) : ∃ t, exec i s = .next t := by
  obtain ⟨_, _, _, -, -, -, he⟩ | ⟨_, _, -, he⟩ := exec_cases i s <;> exact ⟨_, he⟩

/-- A running engine answers a next state (rule R100). -/
theorem step_next_of_running (hr : s.run = .running) : ∃ t, step s = .next t := by
  obtain ⟨-, he⟩ | ⟨-, he | he⟩ | ⟨-, i, -, -, he⟩ := step_running hr
  case inr.inr => exact he ▸ exec_next i s
  all_goals exact ⟨_, he⟩

/-- A run of at least one step that answers a next state has a first step that does. -/
theorem core_run_succ_eq_next {k : Nat} (h : Host.Core.run core (k + 1) s = .next t) :
    ∃ u, step s = .next u ∧ Host.Core.run core k u = .next t := by
  by_cases hr : s.run = .running
  · obtain ⟨u, hu⟩ := step_next_of_running hr
    exact ⟨u, hu, (core_run_next k hu).symm.trans h⟩
  · cases (core_run_fault k (step_halted hr)).symm.trans h

/-- What every step keeps, every run keeps. -/
theorem core_run_keeps {P : State → Prop} (hstep : ∀ u v, P u → step u = .next v → P v) {k : Nat}
    (hs : P s) (h : Host.Core.run core k s = .next t) : P t := by
  induction k generalizing s with
  | zero =>
    obtain rfl := Host.Outcome.next.inj h
    exact hs
  | succ k ih =>
    obtain ⟨u, hu, hrun⟩ := core_run_succ_eq_next h
    exact ih (hstep s u hs hu) hrun

/-- `t` has the program buffer and the parameters of `s`, and the output of `s` with further events. -/
def State.Extends (s t : State) : Prop :=
  t.prog = s.prog ∧ t.params = s.params ∧ ∃ events, t.out = s.out ++ events

theorem State.Extends.refl (s : State) : s.Extends s := ⟨rfl, rfl, [], (List.append_nil _).symm⟩

theorem State.Extends.step {u v : State} (hu : s.Extends u) (h : step u = .next v) :
    s.Extends v := by
  obtain ⟨hprog, hparams, before, hout⟩ := hu
  obtain ⟨events, -, hevents⟩ := step_out h
  exact ⟨(step_prog h).trans hprog, (step_params h).trans hparams, before ++ events,
    by rw [hevents, hout, List.append_assoc]⟩

/-- Settles O43: each step extends what the steps before it extended. -/
theorem runsKeepTheProgramAndExtendTheOutput : Obligations.RunsKeepTheProgramAndExtendTheOutput :=
  fun _ s _ h => core_run_keeps (P := s.Extends) (fun _ _ => .step) (.refl s) h

end Sys2Proof.Machine
end

section
/-! SUPPORT. The opcode map's table, the bytes it leaves unassigned, and the step at such a byte
(spec/30_encoding.md). -/

namespace Sys2Proof

/-! ### The bytes of an opcode map -/

theorem opcodeAt_eq_none_iff_not_mem {m : OpcodeMap} {b : Byte} :
    opcodeAt m b = none ↔ b ∉ Opcode.all.map m.byteOf := by
  simp [opcodeAt_eq_none_iff, Opcode.mem_all]

/-- The byte values that name an opcode are the opcodes' bytes, each once (rule R11). -/
theorem assignedBytes_perm {m : OpcodeMap} (h : m.Valid) :
    ((List.range 256).filter fun n => !(opcodeAt m (BitVec.ofNat 8 n)).isNone).Perm
      ((Opcode.all.map m.byteOf).map BitVec.toNat) := by
  have hbytes : ((Opcode.all.map m.byteOf).map BitVec.toNat).Nodup :=
    h.map fun _ _ => BitVec.eq_of_toNat_eq
  refine (List.perm_ext_iff_of_nodup (List.nodup_range.filter _) hbytes).mpr fun n => ?_
  have hmem : (opcodeAt m (BitVec.ofNat 8 n)).isNone = false ↔
      BitVec.ofNat 8 n ∈ Opcode.all.map m.byteOf := by
    rw [← not_iff_not, ← opcodeAt_eq_none_iff_not_mem]
    simp
  rw [List.mem_filter, List.mem_range, Bool.not_eq_true', hmem, List.mem_map (f := BitVec.toNat)]
  constructor
  · rintro ⟨hn, hb⟩
    exact ⟨_, hb, by simpa using hn⟩
  · rintro ⟨b, hb, rfl⟩
    exact ⟨b.isLt, by simpa using hb⟩

/-- Of the 256 byte values every injective map leaves those unassigned that its 17 opcodes do not
take (rule R78). -/
theorem unassignedBytes_length {m : OpcodeMap} (h : m.Valid) :
    ((List.range 256).filter fun n => (opcodeAt m (BitVec.ofNat 8 n)).isNone).length = 239 := by
  have hassigned := (assignedBytes_perm h).length_eq
  have hall := List.length_eq_length_filter_add (l := List.range 256)
    fun n => (opcodeAt m (BitVec.ofNat 8 n)).isNone
  simp only [List.length_map, List.length_range, show Opcode.all.length = 17 from rfl]
    at hassigned hall
  omega

end Sys2Proof

namespace Sys2Proof.Machine

variable {s : State} {b : Byte}

/-- Settles O20: the model's tables are those of rule R77, row by row. -/
theorem defaultOpcodeTable : Obligations.DefaultOpcodeTable := ⟨rfl, rfl⟩

/-! ### The step at an unassigned byte -/

/-- A fault that fetching raises ends the step (rules R101 and R102). -/
theorem step_of_fetch_raise {kind : FaultKind} (hr : s.run = .running) (hb : ¬budgetSpent s)
    (hf : fetch s = raise kind s) : step s = .next (faulted kind s) := by
  simp [step, hr, hb, hf, raise]

theorem fetch_of_unknown (hread : s.prog.read s.pc = some b)
    (hop : opcodeAt s.params.opcodeMap b = none) : fetch s = raise .unknownOpcode s := by
  simp [fetch, Memory.window_of_read hread, decode_of_unknown hop]

/-- The opcode byte alone is read when it names no opcode (rule R102). -/
theorem portReads_of_unknown (hr : s.run = .running) (hb : ¬budgetSpent s)
    (hread : s.prog.read s.pc = some b) (hop : opcodeAt s.params.opcodeMap b = none) :
    portReads s = [s.pc] := by
  simp [portReads, hr, hb, hread, hop]

/-- Settles O21: the unassigned bytes are those outside the table, counted from the map's
injectivity, and fetching one raises `UnknownOpcode`. -/
theorem unassignedBytesAreUnknownOpcodes : Obligations.UnassignedBytesAreUnknownOpcodes := by
  refine ⟨fun b => opcodeAt_eq_none_iff_not_mem, unassignedBytes_length OpcodeMap.default_valid,
    fun s b hr hb hmap hread hop => ?_⟩
  rw [← hmap] at hop
  exact ⟨step_of_fetch_raise hr hb (fetch_of_unknown hread hop),
    portReads_of_unknown hr hb hread hop⟩

end Sys2Proof.Machine
end

section
/-! SUPPORT. Fetch, decode and the end of a step: the checks in their order, the bytes read, the pc and
the counter (spec/40_fetch_decode_execute.md). -/

namespace Sys2Proof.Machine

open Sys2Proof.Claims

variable {s t : State} {b : Byte} {op : Opcode} {i : Instr}

/-! ### What a step presents on the read port -/

theorem portReads_of_budgetSpent (hb : budgetSpent s) : portReads s = [] := by
  cases hr : s.run <;> simp [portReads, hr, hb]

/-- At or past `PROG_LEN` nothing is read (rule R101). -/
theorem portReads_of_end (hend : s.prog.size ≤ s.pc) : portReads s = [] := by
  cases hr : s.run <;> simp [portReads, hr, Memory.read_eq_none_iff.mpr hend]

/-- The opcode byte alone is read when the immediates cross the end (rule R102). -/
theorem portReads_of_cut (hr : s.run = .running) (hb : ¬budgetSpent s)
    (hread : s.prog.read s.pc = some b) (hop : opcodeAt s.params.opcodeMap b = some op)
    (hcut : s.prog.size < s.pc + op.length) : portReads s = [s.pc] := by
  simp [portReads, hr, hb, hread, hop, hcut]

/-- The bytes of a complete instruction are read in order (rule R102). -/
theorem portReads_of_inside (hr : s.run = .running) (hb : ¬budgetSpent s)
    (hread : s.prog.read s.pc = some b) (hop : opcodeAt s.params.opcodeMap b = some op)
    (hin : s.pc + op.length ≤ s.prog.size) :
    portReads s = (List.range op.length).map fun k => s.pc + k := by
  simp [portReads, hr, hb, hread, hop, Nat.not_lt.mpr hin]

/-- Past the budget and the bound, the offset presented first is the pc: alone for an unknown or a cut
opcode, otherwise as the first of the instruction's bytes. -/
theorem portReads_head? (hr : s.run = .running) (hb : ¬budgetSpent s)
    (hread : s.prog.read s.pc = some b) : (portReads s).head? = some s.pc := by
  cases hop : opcodeAt s.params.opcodeMap b with
  | none => rw [portReads_of_unknown hr hb hread hop, List.head?_cons]
  | some op =>
    rcases Nat.lt_or_ge s.prog.size (s.pc + op.length) with hcut | hin
    · rw [portReads_of_cut hr hb hread hop hcut, List.head?_cons]
    · rw [portReads_of_inside hr hb hread hop hin, List.head?_map, List.head?_range,
        if_neg (Nat.one_le_iff_ne_zero.mp (length_bounds op).1)]
      rfl

/-! ### Fetching -/

theorem step_of_budgetSpent (hr : s.run = .running) (hb : budgetSpent s) :
    step s = .next (faulted .timeout s) := by
  simp [step, hr, hb]

theorem step_of_fetch_ok (hr : s.run = .running) (hb : ¬budgetSpent s) (hf : fetch s = .ok i s) :
    step s = exec i s := by
  simp [step, hr, hb, hf]

theorem fetch_of_end (hend : s.prog.size ≤ s.pc) : fetch s = raise .truncatedProgram s := by
  simp [fetch, Memory.window_of_end hend, decode]

/-- Settles O27: the budget, the bound and the first read, each by the lemma about that check. -/
theorem fetchChecksBudgetThenBound : Obligations.FetchChecksBudgetThenBound := fun _ hr =>
  ⟨fun hb => ⟨step_of_budgetSpent hr hb, portReads_of_budgetSpent hb⟩,
    fun hb hend => ⟨step_of_fetch_raise hr hb (fetch_of_end hend), portReads_of_end hend⟩,
    fun hb hpc =>
      have hread := Memory.read_of_lt hpc
      ⟨_, hread, portReads_head? hr hb hread⟩⟩

/-! ### Decoding -/

/-- What the window begins with stands at the pc. -/
theorem standsAtPc_of_window {bytes rest : List Byte}
    (hw : s.prog.window s.pc = bytes ++ rest) : standsAtPc s bytes := by
  intro k hk
  have hlen := Memory.window_length s.prog s.pc
  rw [hw, List.length_append] at hlen
  rw [← Memory.window_getElem? (by omega), hw, List.getElem?_append_left hk]

/-- An opcode at the pc decodes to an instruction whose encoding stands there, unless its immediates
cross the end of the buffer (rule R102). -/
theorem fetch_of_opcode (hread : s.prog.read s.pc = some b)
    (hop : opcodeAt s.params.opcodeMap b = some op) :
    (s.prog.size < s.pc + op.length ∧ fetch s = raise .truncatedProgram s) ∨
    (s.pc + op.length ≤ s.prog.size ∧ ∃ i, i.opcode = op ∧ i.wellFormed = true ∧
      standsAtPc s (encode s.params.opcodeMap i) ∧ fetch s = .ok i s) := by
  have hlen := Memory.window_length s.prog s.pc
  have hw := Memory.window_of_read hread
  generalize (s.prog.read (s.pc + 1)).toList ++ (s.prog.read (s.pc + 2)).toList = rest at hw
  have hd : decode s.params.opcodeMap (s.prog.window s.pc) = decodeOperands op rest := by
    rw [hw, decode_cons hop]
  rw [hw, List.length_cons] at hlen
  rcases decodeOperands_cases op rest with ⟨i, r, hi, hiop, hwf, hrest, -⟩ | ⟨herr, hshort⟩
  · rw [hi] at hd
    refine .inr ⟨hiop ▸ decoded_inside hd, i, hiop, hwf, standsAtPc_of_window (rest := r) ?_, ?_⟩
    · rw [hw, hrest, encode, hiop, byteOf_of_opcodeAt hop, List.cons_append]
    · simp [fetch, hd]
  · have hmax : op.length ≤ 3 := (length_bounds op).2
    exact .inl ⟨by omega, by simp [fetch, hd, herr]⟩

/-- Settles O28: the unknown opcode, the cut and the complete instruction, the last two by
`fetch_of_opcode`. -/
theorem decodeChecksOpcodeThenImmediates : Obligations.DecodeChecksOpcodeThenImmediates := by
  intro s b hr hb hmap hread
  refine ⟨fun hunknown => ?_, ?_, ?_⟩
  · have hop := opcodeAt_eq_none_iff.mpr hunknown
    exact ⟨step_of_fetch_raise hr hb (fetch_of_unknown hread hop),
      portReads_of_unknown hr hb hread hop⟩
  · rintro op rfl hcut
    have hop := opcodeAt_byteOf hmap op
    obtain ⟨-, hf⟩ := (fetch_of_opcode hread hop).resolve_right
      fun ⟨hin, _⟩ => Nat.not_lt.mpr hin hcut
    exact ⟨step_of_fetch_raise hr hb hf, portReads_of_cut hr hb hread hop hcut⟩
  · rintro op rfl hin
    have hop := opcodeAt_byteOf hmap op
    obtain ⟨-, i, hiop, hwf, hstands, hf⟩ := (fetch_of_opcode hread hop).resolve_left
      fun ⟨hcut, _⟩ => Nat.not_lt.mpr hin hcut
    exact ⟨portReads_of_inside hr hb hread hop hin, i, hiop, hwf, hstands,
      step_of_fetch_ok hr hb hf⟩

/-! ### The end of a step -/

/-- An instruction's next state is a fault after at most some pops, or what its completion retires to. -/
theorem exec_next_cases (h : exec i s = .next t) :
    (∃ kind rest, t = faulted kind (s.setStk rest)) ∨
    ∃ next u, Completion i s next u ∧ t = retire next u := by
  rcases exec_cases i s with ⟨kind, popped, rest, -, -, -, he⟩ | ⟨next, u, hu, he⟩ <;>
    obtain rfl := Host.Outcome.next.inj (h.symm.trans he)
  · exact .inl ⟨kind, rest, rfl⟩
  · exact .inr ⟨next, u, hu, rfl⟩

theorem retire_pc_of_running (next : Nat) (hr : s.run = .running) : (retire next s).pc = next := by
  rw [retire_running next hr]

theorem retire_pc_of_halted (next : Nat) (hr : s.run ≠ .running) : (retire next s).pc = s.pc := by
  rw [retire_halted next hr]

/-- Retiring counts the instruction when a budget is set, in a running and in a halted state
(rule R105). -/
theorem retire_icount (next : Nat) (s : State) : (retire next s).icount = ticked s := by
  by_cases hr : s.run = .running
  · rw [retire_running next hr]
    cases hb : s.params.instrBudget <;> simp [ticked, hb]
  · rw [retire_halted next hr]
    cases hb : s.params.instrBudget <;> simp [ticked, hb]

theorem ticked_congr (hparams : t.params = s.params) (hicount : t.icount = s.icount) :
    ticked t = ticked s := by
  rw [ticked, ticked, hparams, hicount]

/-- Completing an instruction is no fault. -/
theorem Completion.run_ne_haltedFault {next : Nat} (hu : Completion i s next t)
    (hr : s.run = .running) (kind : FaultKind) : t.run ≠ .haltedFault kind := by
  rcases hu.run with ⟨-, h⟩ | ⟨-, h⟩ <;> simp [h, hr]

/-- Settles O29: a fault keeps the pc, and a completion retires to the next pc it computed, in a
running state only. -/
theorem pcAdvancesByTheBytesConsumed : Obligations.PcAdvancesByTheBytesConsumed := by
  intro i s t _ h
  obtain ⟨kind, rest, rfl⟩ | ⟨next, u, hu, rfl⟩ := exec_next_cases h
  · exact ⟨fun _ => rfl, fun hrun => nomatch hrun⟩
  · rw [retire_run]
    refine ⟨fun hhalt => ?_, fun hrun => ?_⟩
    · rw [retire_pc_of_halted next hhalt, hu.pc]
    · rw [retire_pc_of_running next hrun, encode_length]
      exact hu.next.imp_right And.right

/-- Settles O30: a fault keeps the counter, and every completion is counted. -/
theorem counterCountsCompletedInstructions : Obligations.CounterCountsCompletedInstructions := by
  intro i s t hr h
  obtain ⟨kind, rest, rfl⟩ | ⟨next, u, hu, rfl⟩ := exec_next_cases h
  · exact ⟨fun _ => rfl, fun hclean => absurd rfl (hclean kind)⟩
  · rw [retire_run, retire_icount, ticked_congr hu.params hu.icount]
    refine ⟨fun ⟨kind, hfault⟩ => absurd hfault (hu.run_ne_haltedFault hr kind), fun _ => ?_⟩
    exact ⟨fun hnone => by rw [ticked, hnone], fun budget hsome => by rw [ticked, hsome]⟩

end Sys2Proof.Machine
end

section
/-! SUPPORT. The stack instructions, and what they share: a completed step and its counter, pushing with
and without room, and an opcode cut off by the end of the buffer (spec/41_stack.md). -/

namespace Sys2Proof.Machine

open Sys2Proof.Claims

variable {s : State}

/-! ### Ending an instruction -/

/-- The last two lines of a step in a running state, with the counter in the claims' form (rule R105). -/
theorem retire_eq_ticked (next : Nat) (hr : s.run = .running) :
    retire next s = { s with pc := next, icount := ticked s } := by
  rw [retire_running next hr]
  cases hb : s.params.instrBudget <;> simp [ticked, hb]

/-- An instruction of `n` bytes that does no more than replace the stack. -/
theorem fallThrough_setStk (n : Nat) (l : List Word) (hr : s.run = .running) :
    fallThrough n (.ok () (s.setStk l)) =
      .next { s with stk := l, pc := s.pc + n, icount := ticked s } := by
  rw [fallThrough_ok, retire_eq_ticked (s := s.setStk l) _ hr]
  rfl

/-- An instruction of `n` bytes that ends with a push for which there is room (rule R110). -/
theorem fallThrough_push_of_room (n : Nat) (v : Word) (hr : s.run = .running) (room : hasRoom s) :
    fallThrough n (push v s) =
      .next { s with stk := v :: s.stk, pc := s.pc + n, icount := ticked s } := by
  rw [push_of_room v room, fallThrough_setStk n _ hr]

/-- An instruction of `n` bytes that ends with a push at capacity (rule R110). -/
theorem fallThrough_push_of_full (n : Nat) (v : Word)
    (full : s.params.stackCapacity = some s.stk.length) :
    fallThrough n (push v s) = .next { s with run := .haltedFault .capacityExceeded } := by
  rw [push_of_full v full, fallThrough_raise]
  rfl

/-- Every opcode whose immediates cross the end halts the run at decode (rule R102). -/
theorem cutAtTheEnd_length (op : Opcode) : cutAtTheEnd op op.length := by
  intro s hr hb hmap hread hcut
  obtain ⟨-, hf⟩ := (fetch_of_opcode hread (opcodeAt_byteOf hmap op)).resolve_right
    fun ⟨hin, _⟩ => Nat.not_lt.mpr hin hcut
  exact step_of_fetch_raise hr hb hf

/-! ### const-zero, pop and dup -/

/-- Settles O1, by the push rules with and without room. -/
theorem constZeroPushesZero : Obligations.ConstZeroPushesZero :=
  ⟨rfl, fun _ hr => ⟨fallThrough_push_of_room 1 0 hr, fallThrough_push_of_full 1 0⟩⟩

theorem exec_pop_cons {x : Word} {rest : List Word} (hr : s.run = .running)
    (hs : s.stk = x :: rest) :
    exec .pop s = .next { s with stk := rest, pc := s.pc + 1, icount := ticked s } := by
  rw [exec, execPop, pop_cons hs, Phase.ok_andThen, fallThrough_setStk 1 rest hr]

theorem underflowsOnEmpty_pop : underflowsOnEmpty .pop := by
  intro s _ hs
  rw [exec, execPop, pop_nil hs, raise_andThen, fallThrough_raise]
  rfl

/-- Settles O2, by the pop rules on an empty and a non-empty stack. -/
theorem popDiscardsTop : Obligations.PopDiscardsTop :=
  ⟨rfl, underflowsOnEmpty_pop, fun _ _ _ => exec_pop_cons⟩

/-- With a top, `dup` is a push of it. -/
theorem exec_dup_cons {x : Word} {rest : List Word} (hs : s.stk = x :: rest) :
    exec .dup s = fallThrough 1 (push x s) := by
  rw [exec, execDup, peek_cons hs, Phase.ok_andThen]

theorem underflowsOnEmpty_dup : underflowsOnEmpty .dup := by
  intro s _ hs
  rw [exec, execDup, peek_nil hs, raise_andThen, fallThrough_raise]
  rfl

/-- Settles O3: `dup` pushes the top it peeks at, and `pop` then removes what it pushed. -/
theorem dupDuplicatesTop : Obligations.DupDuplicatesTop := by
  refine ⟨rfl, underflowsOnEmpty_dup, fun s x rest hr hs => ?_⟩
  have hdup (room : hasRoom s) : exec .dup s =
      .next { s with stk := x :: s.stk, pc := s.pc + 1, icount := ticked s } :=
    (exec_dup_cons hs).trans (fallThrough_push_of_room 1 x hr room)
  refine ⟨fun room => hs ▸ hdup room, fun full => ?_, fun room => ?_⟩
  · exact (exec_dup_cons hs).trans (fallThrough_push_of_full 1 x full)
  · exact ⟨_, _, hdup room, exec_pop_cons hr rfl, rfl⟩

/-! ### push-byte -/

theorem decode_default_pushByte (b1 : Byte) (rest : List Byte) :
    decode OpcodeMap.default (0x10 :: b1 :: rest) = .ok (.pushByte b1.toInt, rest) :=
  decode_cons (opcodeAt_byteOf OpcodeMap.default_valid .pushByte) _

theorem fitsSignedByte_iff {v : Int} : fitsSignedByte v = true ↔ -128 ≤ v ∧ v ≤ 127 := by
  simp [fitsSignedByte]

/-- A value a signed byte holds is pushed as it is: the wrap to 32 bits does nothing to it. -/
theorem i32_toInt_of_fitsSignedByte {v : Int} (h : fitsSignedByte v = true) : (i32 v).toInt = v := by
  obtain ⟨hlo, hhi⟩ := fitsSignedByte_iff.mp h
  exact BitVec.toInt_ofInt_eq_self (by decide) (by omega) (by omega)

/-- Settles O4: the byte's range, the cut opcode, and the push rules at the word of value `v`. -/
theorem pushBytePushesSignedByte : Obligations.PushBytePushesSignedByte :=
  ⟨fun b1 rest => ⟨decode_default_pushByte b1 rest, fitsSignedByte_iff.mp (fitsSignedByte_sext8 b1)⟩,
    cutAtTheEnd_length .pushByte,
    fun v _ hwf hr =>
      ⟨fun room => ⟨i32 v, i32_toInt_of_fitsSignedByte hwf, fallThrough_push_of_room 2 (i32 v) hr room⟩,
        fallThrough_push_of_full 2 (i32 v)⟩⟩

end Sys2Proof.Machine
end

section
/-! SUPPORT. The ALU instructions, and what they share: the underflows, a result pushed in place of the
operands, and a division fault after both pops; then the values of the operations
(spec/42_alu.md). -/

namespace Sys2Proof.Machine

open Sys2Proof.Claims

variable {s : State} {a b r : Word} {rest : List Word}

/-! ### The common shape (rule R150) -/

/-- An instruction that is an ALU operation, whichever operation the state selects, underflows below
depth 2. -/
theorem underflowsBelowTwo_of_aluOp {i : Instr} {op : State → Word → Word → Option Word}
    (hi : ∀ s, exec i s = fallThrough 1 (aluOp (op s) s)) : underflowsBelowTwo i := by
  refine fun s _ => ⟨fun hs => ?_, fun t hs => ?_⟩
  · rw [hi, aluOp_nil hs, fallThrough_raise]
    rfl
  · rw [hi, aluOp_one hs, fallThrough_raise]
    rfl

/-- Within the capacity, two pops leave room for one push. -/
theorem room_after_two_pops (hc : withinCapacity s) (hs : s.stk = b :: a :: rest) :
    s.params.stackCapacity ≠ some rest.length := by
  intro hfull
  simp [withinCapacity, hfull, hs] at hc

theorem fallThrough_aluOp_result {op : Word → Word → Option Word} (hr : s.run = .running)
    (hc : withinCapacity s) (hs : s.stk = b :: a :: rest) (hop : op a b = some r) :
    fallThrough 1 (aluOp op s) =
      .next { s with stk := r :: rest, pc := s.pc + 1, icount := ticked s } := by
  rw [aluOp_result hs hop (room_after_two_pops hc hs), fallThrough_setStk 1 _ hr]

theorem fallThrough_aluOp_fault {op : Word → Word → Option Word} (hs : s.stk = b :: a :: rest)
    (hop : op a b = none) :
    fallThrough 1 (aluOp op s) =
      .next { s with stk := rest, run := .haltedFault .divisionByZero } := by
  rw [aluOp_fault hs hop, fallThrough_raise]
  rfl

/-- An instruction that is an ALU operation with a result for every pair of operands replaces the top
two by it. -/
theorem replacesTopTwo_of_aluOp {i : Instr} {f : Word → Word → Word}
    {result : Word → Word → Word → Prop}
    (hi : ∀ s, exec i s = fallThrough 1 (aluOp (fun a b => some (f a b)) s))
    (hf : ∀ a b, result a b (f a b)) : replacesTopTwo i result := fun s a b _ hr hc hs =>
  ⟨f a b, hf a b, (hi s).trans (fallThrough_aluOp_result hr hc hs rfl)⟩

/-! ### add, sub and mul -/

/-- `i32(v)` is congruent to `v` modulo `2^32` (rule R13). -/
theorem wraps_i32 (v : Int) : wraps (i32 v) v := by
  refine ⟨-Int.bdiv v (2 ^ 32), ?_⟩
  rw [i32, BitVec.toInt_ofInt, Int.bmod_eq_self_sub_mul_bdiv]
  omega

/-- Settles O5: `add` is an ALU operation with the wrapped sum as its result. -/
theorem addWrapsTheSum : Obligations.AddWrapsTheSum :=
  ⟨rfl, underflowsBelowTwo_of_aluOp fun _ => rfl,
    replacesTopTwo_of_aluOp (f := aluAdd) (fun _ => rfl) fun _ _ => wraps_i32 _⟩

/-- Settles O6: `sub` is an ALU operation with the wrapped difference as its result. -/
theorem subWrapsTheDifference : Obligations.SubWrapsTheDifference :=
  ⟨rfl, underflowsBelowTwo_of_aluOp fun _ => rfl,
    replacesTopTwo_of_aluOp (f := aluSub) (fun _ => rfl) fun _ _ => wraps_i32 _⟩

/-- Settles O7: `mul` is an ALU operation with the wrapped product as its result. -/
theorem mulWrapsTheProduct : Obligations.MulWrapsTheProduct :=
  ⟨rfl, underflowsBelowTwo_of_aluOp fun _ => rfl,
    replacesTopTwo_of_aluOp (f := aluMul) (fun _ => rfl) fun _ _ => wraps_i32 _⟩

/-! ### div -/

/-- A word's own value is not changed by the wrap to 32 bits. -/
@[simp] theorem i32_toInt (w : Word) : i32 w.toInt = w := BitVec.ofInt_toInt

/-- The overflowing pair, as words. -/
theorem divOverflows_iff : divOverflows a b ↔ a = BitVec.intMin 32 ∧ b = -1#32 := by
  have hmin : (BitVec.intMin 32).toInt = -2147483648 := by decide
  have hneg : (-1#32 : Word).toInt = -1 := by decide
  rw [divOverflows, ← hmin, ← hneg, BitVec.toInt_inj, BitVec.toInt_inj]

/-- But for the overflowing pair, the quotient rounded toward zero is a 32-bit value. -/
theorem i32_tdiv_toInt (h : ¬divOverflows a b) :
    (i32 (Int.tdiv a.toInt b.toInt)).toInt = Int.tdiv a.toInt b.toInt := by
  have hne : a ≠ BitVec.intMin 32 ∨ b ≠ -1#32 := not_and_or.mp (divOverflows_iff.not.mp h)
  rw [← BitVec.toInt_sdiv_of_ne_or_ne a b hne, i32_toInt]

theorem aluDiv_of_zero (overflowFaults : Bool) (hb : b = 0) : aluDiv overflowFaults a b = none :=
  if_pos hb

theorem ne_zero_of_divOverflows (h : divOverflows a b) : b ≠ 0 := by
  obtain ⟨-, hneg⟩ := h
  rintro rfl
  exact absurd hneg (by decide)

theorem aluDiv_of_overflow (overflowFaults : Bool) (h : divOverflows a b) :
    aluDiv overflowFaults a b = if overflowFaults then none else some (i32 (-2147483648)) := by
  rw [aluDiv, if_neg (ne_zero_of_divOverflows h), if_pos h]

theorem aluDiv_of_not_overflow (overflowFaults : Bool) (hb : b ≠ 0) (h : ¬divOverflows a b) :
    aluDiv overflowFaults a b = some (i32 (Int.tdiv a.toInt b.toInt)) := by
  rw [aluDiv, if_neg hb, if_neg h]

/-- Where a division raises nothing, its quotient: `-2^31` for the overflowing pair, otherwise the
exact quotient rounded toward zero. -/
theorem aluDiv_of_divides (hd : divides s a b) :
    ∃ q, aluDiv s.params.divOverflowFault a b = some q ∧
      (divOverflows a b → q.toInt = -2147483648) ∧
      (¬divOverflows a b → q.toInt = Int.tdiv a.toInt b.toInt) := by
  obtain ⟨hb, hno⟩ := hd
  by_cases hov : divOverflows a b
  · have hunset : s.params.divOverflowFault = false := by
      simpa using fun hset => hno ⟨hset, hov⟩
    exact ⟨i32 (-2147483648), by simp [aluDiv_of_overflow _ hov, hunset], fun _ => by decide,
      fun h => absurd hov h⟩
  · exact ⟨_, aluDiv_of_not_overflow _ hb hov, fun h => absurd h hov, i32_tdiv_toInt⟩

/-- Settles O8: a zero divisor, the overflowing pair where it faults, and the quotient elsewhere. -/
theorem divTruncatesTowardZero : Obligations.DivTruncatesTowardZero := by
  refine ⟨rfl, underflowsBelowTwo_of_aluOp (op := fun s => aluDiv s.params.divOverflowFault)
    fun _ => rfl, fun s a b rest hr hs => ⟨fun hb => ?_, fun ha hb hset => ?_, fun hd hc => ?_⟩⟩
  · exact fallThrough_aluOp_fault hs (aluDiv_of_zero _ hb)
  · exact fallThrough_aluOp_fault hs (by rw [aluDiv_of_overflow _ ⟨ha, hb⟩, if_pos hset])
  · obtain ⟨q, hq, hover, hexact⟩ := aluDiv_of_divides hd
    exact ⟨q, fun ha hb => hover ⟨ha, hb⟩, hexact, fallThrough_aluOp_result hr hc hs hq⟩

/-! ### shr-arith -/

theorem shiftAmount_eq_mod (t : Word) : shiftAmount t = t.toNat % 32 := by
  simp [shiftAmount]

/-- Division by a power of two, rounded down, is the library's arithmetic shift. -/
theorem fdiv_two_pow_eq_shiftRight (v : Int) (k : Nat) : Int.fdiv v (2 ^ k) = v >>> k := by
  rw [Int.fdiv_eq_ediv_of_nonneg _ (by positivity), Int.shiftRight_eq_div_pow]
  norm_cast

/-- `shr-arith`'s result is the rounded-down quotient itself: it is a 32-bit value, being that of the
shifted word. -/
theorem aluShr_toInt (a b : Word) :
    (aluShr a b).toInt = Int.fdiv a.toInt (2 ^ (b.toNat % 32)) := by
  rw [aluShr, shiftAmount_eq_mod, fdiv_two_pow_eq_shiftRight, ← BitVec.toInt_sshiftRight, i32_toInt]

/-- Settles O10: `shr-arith` is an ALU operation with the rounded-down quotient as its result. -/
theorem shrArithFloorsTheQuotient : Obligations.ShrArithFloorsTheQuotient :=
  ⟨rfl, underflowsBelowTwo_of_aluOp fun _ => rfl,
    replacesTopTwo_of_aluOp (fun _ => rfl) aluShr_toInt⟩

end Sys2Proof.Machine
end

section
/-! SUPPORT. The local variable instructions, and what they share: the index check, a write of one
slot, and the slots after it (spec/43_locals.md). -/

namespace Sys2Proof.Machine

open Sys2Proof.Claims

variable {s : State} {v : Word} {rest : List Word}

/-! ### The index check and the bank (rules R114 and R183) -/

theorem checkIndex_fin (n : Fin numLocals) : checkIndex n s = .ok n s := checkIndex_of_lt n.isLt

/-- An instruction that checks its index first does nothing else when the index names no slot. -/
theorem fallThrough_badIndex {n : Nat} (len : Nat) (k : Fin numLocals → State → Phase Unit)
    (hn : 9 < n) :
    fallThrough len ((checkIndex n s).andThen k) =
      .next { s with run := .haltedFault .invalidIndex } := by
  rw [checkIndex_of_gt hn, raise_andThen, fallThrough_raise]
  rfl

/-- An instruction of `len` bytes that ends with a write of one slot. -/
theorem fallThrough_writeLocal (len : Nat) (n : Fin numLocals) (v : Word) (hr : s.run = .running) :
    fallThrough len (.ok () (writeLocal n v s)) =
      .next { s with locals := s.locals.set n v, pc := s.pc + len, icount := ticked s } := by
  rw [fallThrough_ok, retire_eq_ticked (s := writeLocal n v s) _ hr]
  rfl

theorem readLocal_writeLocal_same (n : Fin numLocals) (v : Word) (s : State) :
    readLocal n (writeLocal n v s) = v := by
  simp [readLocal, writeLocal]

theorem readLocal_writeLocal_other {n k : Fin numLocals} (h : k ≠ n) (v : Word) (s : State) :
    readLocal k (writeLocal n v s) = readLocal k s :=
  Vector.getElem_set_ne n.isLt k.isLt fun he => h (Fin.ext he.symm)

/-! ### load-local -/

theorem decode_default_loadLocal (b1 : Byte) (rest : List Byte) :
    decode OpcodeMap.default (0x15 :: b1 :: rest) = .ok (.loadLocal b1.toNat, rest) :=
  decode_cons (opcodeAt_byteOf OpcodeMap.default_valid .loadLocal) _

/-- With an index in range, `load-local` is a push of the slot. -/
theorem exec_loadLocal_fin (n : Fin numLocals) :
    exec (.loadLocal n) s = fallThrough 2 (push s.locals[n] s) := by
  rw [exec, execLoadLocal, checkIndex_fin, Phase.ok_andThen]
  rfl

theorem exec_loadLocal_of_room (n : Fin numLocals) (hr : s.run = .running) (room : hasRoom s) :
    exec (.loadLocal n) s =
      .next { s with stk := s.locals[n] :: s.stk, pc := s.pc + 2, icount := ticked s } :=
  (exec_loadLocal_fin n).trans (fallThrough_push_of_room 2 _ hr room)

/-- Settles O11: the cut opcode, the reset bank, and the push rules at the slot's value. -/
theorem loadLocalPushesTheSlot : Obligations.LoadLocalPushesTheSlot :=
  ⟨decode_default_loadLocal, cutAtTheEnd_length .loadLocal, State.initial_locals _ _, fun _ hr =>
    ⟨fun n => exec_loadLocal_of_room n hr,
      fun n full => (exec_loadLocal_fin n).trans (fallThrough_push_of_full 2 _ full),
      fun _ => fallThrough_badIndex 2 _⟩⟩

/-! ### store-local -/

theorem decode_default_storeLocal (b1 : Byte) (rest : List Byte) :
    decode OpcodeMap.default (0x36 :: b1 :: rest) = .ok (.storeLocal b1.toNat, rest) :=
  decode_cons (opcodeAt_byteOf OpcodeMap.default_valid .storeLocal) _

theorem exec_storeLocal_nil (n : Fin numLocals) (hs : s.stk = []) :
    exec (.storeLocal n) s = .next { s with run := .haltedFault .stackUnderflow } := by
  rw [exec, execStoreLocal, checkIndex_fin, Phase.ok_andThen, pop_nil hs, raise_andThen,
    fallThrough_raise]
  rfl

theorem exec_storeLocal_cons (n : Fin numLocals) (hr : s.run = .running) (hs : s.stk = v :: rest) :
    exec (.storeLocal n) s =
      .next { s with stk := rest, locals := s.locals.set n v, pc := s.pc + 2,
                     icount := ticked s } := by
  rw [exec, execStoreLocal, checkIndex_fin, Phase.ok_andThen, pop_cons hs, Phase.ok_andThen,
    fallThrough_writeLocal (s := s.setStk rest) 2 n v hr]
  rfl

/-- Within the capacity, a pop leaves room for a push. -/
theorem room_after_pop (hc : withinCapacity s) (hs : s.stk = v :: rest) :
    s.params.stackCapacity ≠ some rest.length := by
  intro hfull
  simp [withinCapacity, hfull, hs] at hc

/-- Settles O12: the index check comes before the pop; a completed store writes its slot alone, and
the pop has left the room in which loading the slot pushes its value again. -/
theorem storeLocalWritesTheSlot : Obligations.StoreLocalWritesTheSlot := by
  refine ⟨decode_default_storeLocal, cutAtTheEnd_length .storeLocal, fun s hr =>
    ⟨fun n => fallThrough_badIndex 2 _, exec_storeLocal_nil, fun n v rest hs => ?_⟩⟩
  have hslot : (s.locals.set n v)[n] = v := readLocal_writeLocal_same n v s
  refine ⟨_, exec_storeLocal_cons n hr hs, rfl, hslot,
    fun k hk => readLocal_writeLocal_other hk v s, fun hc => ?_⟩
  have room : s.params.stackCapacity ≠ some rest.length := room_after_pop hc hs
  exact ⟨_, exec_loadLocal_of_room n hr room, congrArg (· :: rest) hslot⟩

/-! ### inc-local -/

theorem decode_default_incLocal (b1 b2 : Byte) (rest : List Byte) :
    decode OpcodeMap.default (0x84 :: b1 :: b2 :: rest) = .ok (.incLocal b1.toNat b2.toInt, rest) :=
  decode_cons (opcodeAt_byteOf OpcodeMap.default_valid .incLocal) _

theorem exec_incLocal_fin (n : Fin numLocals) (d : Int) (hr : s.run = .running) :
    exec (.incLocal n d) s =
      .next { s with locals := s.locals.set n (i32 (s.locals[n].toInt + d)), pc := s.pc + 3,
                     icount := ticked s } := by
  rw [exec, execIncLocal, checkIndex_fin, Phase.ok_andThen, fallThrough_writeLocal 3 n _ hr]
  rfl

/-- Settles O13: the write of one slot, at the wrapped sum. -/
theorem incLocalAddsTheDelta : Obligations.IncLocalAddsTheDelta := by
  refine ⟨decode_default_incLocal, cutAtTheEnd_length .incLocal, fun s d hr =>
    ⟨fun n => fallThrough_badIndex 3 _, fun n => ?_⟩⟩
  have hsum : wraps (readLocal n (writeLocal n (i32 (s.locals[n].toInt + d)) s))
      (s.locals[n].toInt + d) := by
    rw [readLocal_writeLocal_same]
    exact wraps_i32 _
  exact ⟨_, exec_incLocal_fin n d hr, rfl, hsum, fun k hk => readLocal_writeLocal_other hk _ s⟩

end Sys2Proof.Machine
end

section
/-! SUPPORT. The control-transfer instructions, and what they share: a taken branch inside and outside
the buffer, and the end of a step that has halted (spec/44_control.md). -/

namespace Sys2Proof.Machine

open Sys2Proof.Claims

variable {s : State} {v : Word} {rest : List Word} {off : Int}

/-! ### A taken branch (rules R200 and R203) -/

/-- An instruction that ends with a branch inside the buffer moves the pc to the target. -/
theorem complete_branchTarget_inside {target : Nat} (hr : s.run = .running)
    (htarget : (target : Int) = (s.pc : Int) + off) (hin : target < s.prog.size) :
    complete (branchTarget off s) = .next { s with pc := target, icount := ticked s } := by
  rw [branchTarget_inside (by omega) (by omega), complete_ok, ← htarget, Int.toNat_natCast,
    retire_eq_ticked target hr]

/-- An instruction that ends with a branch outside the buffer halts the run. -/
theorem complete_branchTarget_outside
    (hout : (s.pc : Int) + off < 0 ∨ (s.prog.size : Int) ≤ (s.pc : Int) + off) :
    complete (branchTarget off s) = .next { s with run := .haltedFault .truncatedProgram } := by
  rw [branchTarget_outside hout, complete_raise]
  rfl

/-! ### branch-if-zero -/

theorem decode_default_branchIfZero (b1 b2 : Byte) (rest : List Byte) :
    decode OpcodeMap.default (0x99 :: b1 :: b2 :: rest) =
      .ok (.branchIfZero (b1 ++ b2).toInt, rest) :=
  decode_cons (opcodeAt_byteOf OpcodeMap.default_valid .branchIfZero) _

theorem underflowsOnEmpty_branchIfZero (off : Int) : underflowsOnEmpty (.branchIfZero off) := by
  intro s _ hs
  rw [exec, execBranchIfZero, pop_nil hs, raise_andThen, complete_raise]
  rfl

/-- With a top that is not zero, `branch-if-zero` is a pop, whatever its target. -/
theorem exec_branchIfZero_of_ne_zero (off : Int) (hr : s.run = .running) (hs : s.stk = v :: rest)
    (hv : v ≠ 0) :
    exec (.branchIfZero off) s =
      .next { s with stk := rest, pc := s.pc + 3, icount := ticked s } := by
  rw [exec, execBranchIfZero, pop_cons hs, Phase.ok_andThen, if_neg hv, complete_ok,
    retire_eq_ticked (s := s.setStk rest) _ hr]
  rfl

/-- With a zero top, `branch-if-zero` is a taken branch from the state after the pop. -/
theorem exec_branchIfZero_of_zero (off : Int) (hs : s.stk = v :: rest) (hv : v = 0) :
    exec (.branchIfZero off) s = complete (branchTarget off (s.setStk rest)) := by
  rw [exec, execBranchIfZero, pop_cons hs, Phase.ok_andThen, if_pos hv]

/-- Settles O14: the pop comes before the test, and a taken branch goes on from the popped state. -/
theorem branchIfZeroTestsThePoppedValue : Obligations.BranchIfZeroTestsThePoppedValue := by
  refine ⟨decode_default_branchIfZero, cutAtTheEnd_length .branchIfZero,
    underflowsOnEmpty_branchIfZero, fun s off v rest hr hs =>
    ⟨exec_branchIfZero_of_ne_zero off hr hs, fun hv target htarget hin => ?_, fun hv hout => ?_⟩⟩
  · exact (exec_branchIfZero_of_zero off hs hv).trans
      (complete_branchTarget_inside (s := s.setStk rest) hr htarget hin)
  · exact (exec_branchIfZero_of_zero off hs hv).trans
      (complete_branchTarget_outside (s := s.setStk rest) hout)

/-! ### goto -/

theorem decode_default_goto (b1 b2 : Byte) (rest : List Byte) :
    decode OpcodeMap.default (0xa7 :: b1 :: b2 :: rest) = .ok (.goto (b1 ++ b2).toInt, rest) :=
  decode_cons (opcodeAt_byteOf OpcodeMap.default_valid .goto) _

/-- Settles O15: `goto` is a taken branch and nothing else. -/
theorem gotoJumpsRelativeToItsOpcode : Obligations.GotoJumpsRelativeToItsOpcode :=
  ⟨decode_default_goto, cutAtTheEnd_length .goto, fun _ _ hr =>
    ⟨fun _ => complete_branchTarget_inside hr, complete_branchTarget_outside⟩⟩

/-! ### return -/

/-- The last two lines of a step that has halted, with the counter in the claims' form: the pc stays
(rules R104 and R105). -/
theorem retire_halted_eq_ticked (next : Nat) (hr : s.run ≠ .running) :
    retire next s = { s with icount := ticked s } := by
  rw [← retire_icount next s, retire_halted next hr]

/-- `return` halts the run, and the step is counted. -/
theorem exec_ret : exec .ret s = .next { s with run := .haltedOk, icount := ticked s } := by
  have hhalted : (haltOk s).run ≠ .running := nofun
  rw [exec, execRet, fallThrough_ok, retire_halted_eq_ticked _ hhalted]
  rfl

/-- Settles O16: the state `return` halts in, and its status. -/
theorem returnHaltsWithStatusZero : Obligations.ReturnHaltsWithStatusZero := by
  refine ⟨rfl, fun s _ => ⟨exec_ret, fun t ht => ?_⟩⟩
  obtain rfl := Host.Outcome.next.inj (exec_ret.symm.trans ht)
  exact (outputs_of_haltedOk rfl).1

end Sys2Proof.Machine
end

section
/-! SUPPORT. The output instruction, and the decimal text a consumer of the output port writes for a
value (spec/45_output.md). -/

namespace Sys2Proof.Machine

open Sys2Proof.Claims

variable {s : State}

/-! ### print -/

/-- With a top, `print` appends it to the output and leaves the stack (rule R220). -/
theorem exec_print_cons {x : Word} {rest : List Word} (hr : s.run = .running)
    (hs : s.stk = x :: rest) :
    exec .print s = .next { s with out := s.out ++ [x], pc := s.pc + 1, icount := ticked s } := by
  rw [exec, execPrint, peek_cons hs, Phase.ok_andThen, fallThrough_ok,
    retire_eq_ticked (s := emit x s) _ hr]
  rfl

theorem underflowsOnEmpty_print : underflowsOnEmpty .print := by
  intro s _ hs
  rw [exec, execPrint, peek_nil hs, raise_andThen, fallThrough_raise]
  rfl

/-- Settles O17, by the peek rules on an empty and a non-empty stack. -/
theorem printEmitsTopWithoutPopping : Obligations.PrintEmitsTopWithoutPopping :=
  ⟨rfl, underflowsOnEmpty_print, fun _ _ _ => exec_print_cons⟩

/-! ### The decimal digits of a magnitude (rule R222) -/

/-- The ASCII byte of a decimal digit. -/
def asciiDigit (d : Nat) : Byte := BitVec.ofNat 8 (0x30 + d)

theorem asciiDigit_toNat {d : Nat} (h : d < 10) : (asciiDigit d).toNat = 0x30 + d := by
  rw [asciiDigit, BitVec.toNat_ofNat, Nat.mod_eq_of_lt (by omega)]

theorem decimalDigits_of_lt (fuel : Nat) {n : Nat} (h : n < 10) :
    decimalDigits (fuel + 1) n = [asciiDigit n] := by
  rw [decimalDigits, if_pos h, Nat.mod_eq_of_lt h]
  rfl

theorem decimalDigits_of_ge (fuel : Nat) {n : Nat} (h : 10 ≤ n) :
    decimalDigits (fuel + 1) n = decimalDigits fuel (n / 10) ++ [asciiDigit (n % 10)] := by
  rw [decimalDigits, if_neg (Nat.not_lt.mpr h)]
  rfl

theorem readDecimal_append_asciiDigit (ds : List Byte) {d : Nat} (h : d < 10) :
    readDecimal (ds ++ [asciiDigit d]) = 10 * readDecimal ds + d := by
  simp [readDecimal, asciiDigit_toNat h]

/-- `ds` is the decimal text of `n`: ASCII digits that read as `n`, at least one, and no leading
zero unless they are the one digit of zero. -/
structure IsDecimal (n : Nat) (ds : List Byte) : Prop where
  digit : ∀ d ∈ ds, 0x30 ≤ d.toNat ∧ d.toNat ≤ 0x39
  value : readDecimal ds = n
  ne_nil : ds ≠ []
  no_leading_zero : ds.head? = some 0x30 → ds = [0x30]

theorem isDecimal_asciiDigit {n : Nat} (h : n < 10) : IsDecimal n [asciiDigit n] where
  digit := by simp [asciiDigit_toNat h]; omega
  value := by simpa [readDecimal] using readDecimal_append_asciiDigit [] h
  ne_nil := List.cons_ne_nil _ _
  no_leading_zero h0 := by simpa using h0

/-- A further digit on the right of the text of a positive number: the text's first digit, which is
not `0`, stays in front. -/
theorem IsDecimal.append {n : Nat} {ds : List Byte} (hn : 10 ≤ n) (h : IsDecimal (n / 10) ds) :
    IsDecimal n (ds ++ [asciiDigit (n % 10)]) where
  digit d hd := by
    rcases List.mem_append.mp hd with hd | hd
    · exact h.digit d hd
    · rw [List.mem_singleton.mp hd, asciiDigit_toNat (by omega)]
      omega
  value := by rw [readDecimal_append_asciiDigit _ (by omega), h.value, Nat.div_add_mod]
  ne_nil := List.append_ne_nil_of_left_ne_nil h.ne_nil _
  no_leading_zero h0 := by
    rw [List.head?_append_of_ne_nil _ h.ne_nil] at h0
    have hzero : n / 10 = 0 := by rw [← h.value, h.no_leading_zero h0]; rfl
    omega

/-- The model writes the decimal text of every number its fuel covers. -/
theorem isDecimal_decimalDigits {fuel n : Nat} (h : n < 10 ^ (fuel + 1)) :
    IsDecimal n (decimalDigits (fuel + 1) n) := by
  induction fuel generalizing n with
  | zero =>
    rw [decimalDigits_of_lt 0 h]
    exact isDecimal_asciiDigit h
  | succ fuel ih =>
    rcases Nat.lt_or_ge n 10 with hlt | hge
    · rw [decimalDigits_of_lt _ hlt]
      exact isDecimal_asciiDigit hlt
    · have hquot : n / 10 < 10 ^ (fuel + 1) := Nat.div_lt_of_lt_mul (by rwa [← Nat.pow_succ'])
      rw [decimalDigits_of_ge _ hge]
      exact (ih hquot).append hge

/-- Ten digits cover the magnitude of every word, `2^31` included. -/
theorem natAbs_toInt_lt (x : Word) : x.toInt.natAbs < 10 ^ 10 := by
  have hlo := BitVec.le_toInt x
  have hhi := BitVec.toInt_lt (x := x)
  omega

/-- Settles O56: the digits `render` writes between the sign and the newline are the decimal text of
the magnitude. -/
theorem renderedTextIsDecimal : Obligations.RenderedTextIsDecimal := by
  intro x
  obtain ⟨hdigit, hvalue, hne, hlead⟩ := isDecimal_decimalDigits (natAbs_toInt_lt x)
  exact ⟨_, rfl, hdigit, hvalue, hne, hlead⟩

end Sys2Proof.Machine
end

section
/-! SUPPORT. The instruction budget: how a step moves the counter, how many steps a budget allows, and
when `Timeout` is raised (spec/60_exceptions.md rule R241). -/

namespace Sys2Proof.Machine

open Sys2Proof.Claims

variable {s t : State} {i : Instr}

/-! ### The counter along a run -/

/-- A step halts the run with the counter as it was, or it counts its instruction (rule R105). -/
theorem step_halts_or_counts (h : step s = .next t) :
    (t.run ≠ .running ∧ t.icount = s.icount) ∨ t.icount = ticked s := by
  obtain ⟨kind, rfl⟩ | ⟨i, -, -, he⟩ := step_next_cases h
  · exact .inl ⟨by simp, rfl⟩
  obtain ⟨kind, rest, rfl⟩ | ⟨next, u, hu, rfl⟩ := exec_next_cases he
  · exact .inl ⟨by simp, rfl⟩
  · exact .inr ((retire_icount next u).trans (ticked_congr hu.params hu.icount))

/-- With `n` instructions left in the budget, at most `n + 1` steps halt the run: the step that finds
none left raises the timeout. -/
theorem run_halts_of_remaining {b : Nat} (n : Nat) (hr : s.run = .running)
    (hb : s.params.instrBudget = some b) (hn : s.icount + n = b) :
    ∃ k t, k ≤ n + 1 ∧ Host.Core.run core k s = .next t ∧ t.run ≠ .running ∧ t.icount ≤ b := by
  induction n generalizing s with
  | zero =>
    have hspent : budgetSpent s := hb.trans (congrArg some hn.symm)
    exact ⟨1, faulted .timeout s, le_rfl, core_run_next 0 (step_of_budgetSpent hr hspent), by simp,
      hn.le⟩
  | succ n ih =>
    obtain ⟨u, hu⟩ := step_next_of_running hr
    have hticked : ticked s = s.icount + 1 := by rw [ticked, hb]
    have hcount := step_halts_or_counts hu
    by_cases hrun : u.run = .running
    · have hicount := hcount.resolve_left fun hhalt => hhalt.1 hrun
      obtain ⟨k, t, hk, ht, hhalt, hle⟩ := ih hrun ((step_params hu).symm ▸ hb) (by omega)
      exact ⟨k + 1, t, by omega, (core_run_next k hu).trans ht, hhalt, hle⟩
    · exact ⟨1, u, by omega, core_run_next 0 hu, hrun, by omega⟩

/-! ### Only a spent budget times out -/

/-- `Timeout` is no instruction's own fault (rule R230). -/
theorem exec_run_ne_timeout (hr : s.run = .running) (h : exec i s = .next t) :
    t.run ≠ .haltedFault .timeout := by
  rcases exec_cases i s with ⟨kind, popped, rest, -, -, hkind, he⟩ | ⟨next, u, hu, he⟩ <;>
    obtain rfl := Host.Outcome.next.inj (h.symm.trans he)
  · simpa using hkind
  · simpa using hu.run_ne_haltedFault hr .timeout

theorem budgetSpent_of_timeout (h : step s = .next t) (ht : t.run = .haltedFault .timeout) :
    budgetSpent s := by
  have hr := running_of_step h
  obtain ⟨hspent, -⟩ | ⟨-, hfetch⟩ | ⟨-, i, -, -, he⟩ := step_running hr
  · exact hspent
  · rcases hfetch with he | he <;>
      obtain rfl := Host.Outcome.next.inj (h.symm.trans he) <;> cases ht
  · exact absurd ht (exec_run_ne_timeout hr (he.symm.trans h))

/-- Settles O36: the check before the fetch, an induction on the instructions left in the budget, and
`budgetSpent_of_timeout`. -/
theorem budgetedRunHalts : Obligations.BudgetedRunHalts := by
  refine ⟨fun s hr hspent => ?_, fun s b hr hb hle => ?_, fun s t _ hnone h ht => ?_⟩
  · exact ⟨step_of_budgetSpent hr hspent, portReads_of_budgetSpent hspent⟩
  · exact run_halts_of_remaining _ hr hb (Nat.add_sub_cancel' hle)
  · cases hnone.symm.trans (budgetSpent_of_timeout h ht)

end Sys2Proof.Machine
end

section
/-! SUPPORT. Starting the empty program (spec/70_reset_and_hazards.md rule R274). -/

namespace Sys2Proof.Machine

variable {s : State}

/-- The counter starts at 0 (rule R38), so only a budget of 0 is used up before the first step. -/
theorem budgetSpent_initial_iff {p : Params} {m : Memory} :
    budgetSpent (State.initial p m) ↔ p.instrBudget = some 0 := Iff.rfl

/-- `PROG_MAX` bounds the length from above only (rule R8), so the empty program is never refused. -/
theorem start_nil : start [] s = .next (State.initial s.params Memory.empty) :=
  start_eq_next_iff.mpr ⟨Nat.zero_le _, congrArg _ Memory.load_nil.symm⟩

/-- Settles O52: the start pc 0 is already at the end of an empty buffer, and the fetch past the end
raises the fault once the budget check has passed. -/
theorem emptyProgramTruncatesAtOnce : Obligations.EmptyProgramTruncatesAtOnce := by
  intro s hbudget
  have hfetch : fetch (State.initial s.params Memory.empty) = raise .truncatedProgram _ :=
    fetch_of_end le_rfl
  exact ⟨_, start_nil, rfl, step_of_fetch_raise rfl (mt budgetSpent_initial_iff.mp hbudget) hfetch⟩

end Sys2Proof.Machine
end

section
/-! SUPPORT. The decoder and the encoder as inverses of each other, and a `goto` to a label
(spec/30_encoding.md). -/

namespace Sys2Proof

variable {m : OpcodeMap} {i : Instr} {bytes rest : List Byte}

/-- The operand bytes of a well-formed instruction hold its operands: each field gives back the value
it was made from (rules R73 to R76). -/
theorem decodeOperands_operandBytes (hwf : i.wellFormed = true) (rest : List Byte) :
    decodeOperands i.opcode (operandBytes i ++ rest) = .ok (i, rest) := by
  cases i with
  | pushByte v => simp [Instr.opcode, operandBytes, decodeOperands, readOne, sext8_byteOfInt hwf]
  | loadLocal n | storeLocal n =>
    simp [Instr.opcode, operandBytes, decodeOperands, readOne, zext8_byteOfNat hwf]
  | incLocal n d =>
    obtain ⟨hn, hd⟩ := Bool.and_eq_true_iff.mp hwf
    simp [Instr.opcode, operandBytes, decodeOperands, readTwo, zext8_byteOfNat hn, sext8_byteOfInt hd]
  | branchIfZero off | goto off =>
    simp [Instr.opcode, operandBytes, decodeOperands, readTwo, sext16_offset hwf]
  | _ => rfl

/-- Under an injective map the opcode byte names the opcode and the operands are read back. -/
theorem decode_encode (hmap : m.Valid) (hwf : i.wellFormed = true) (rest : List Byte) :
    decode m (encode m i ++ rest) = .ok (i, rest) :=
  (decode_cons (opcodeAt_byteOf hmap i.opcode) _).trans (decodeOperands_operandBytes hwf rest)

/-- Bytes that decode begin with a byte of the instruction's opcode and go on with its operand
bytes. -/
theorem decode_ok_cases (h : decode m bytes = .ok (i, rest)) :
    ∃ b, opcodeAt m b = some i.opcode ∧ i.wellFormed = true ∧
      bytes = b :: (operandBytes i ++ rest) := by
  cases bytes with
  | nil => cases h
  | cons b operands =>
    cases hop : opcodeAt m b with
    | none => cases (decode_of_unknown hop operands).symm.trans h
    | some op =>
      rw [decode_cons hop] at h
      rcases decodeOperands_cases op operands with ⟨j, r, hj, rfl, hwf, hbytes, -⟩ | ⟨herr, -⟩
      · cases hj.symm.trans h
        exact ⟨b, hop, hwf, congrArg _ hbytes⟩
      · cases herr.symm.trans h

/-- Settles O18: the opcode byte and then the operand bytes are read back. -/
theorem decodingAnEncodedInstructionGivesItBack :
    Obligations.DecodingAnEncodedInstructionGivesItBack :=
  fun _ _ rest hmap hwf => decode_encode hmap hwf rest

/-- Settles O19: the byte that named the opcode is the opcode's own, under any map. -/
theorem decodedBytesAreTheEncoding : Obligations.DecodedBytesAreTheEncoding := by
  intro m bytes rest i h
  obtain ⟨b, hop, hwf, rfl⟩ := decode_ok_cases h
  exact ⟨by rw [encode, byteOf_of_opcodeAt hop, List.cons_append], hwf⟩

/-- Settles O22: the decoder computes each of the nine words. -/
theorem sampleWordsDecodeAsWritten : Obligations.SampleWordsDecodeAsWritten :=
  ⟨rfl, rfl, rfl, rfl, rfl, rfl, rfl, rfl, rfl⟩

end Sys2Proof

namespace Sys2Proof.Machine

variable {labels : LabelMap} {name : Text} {p a : Nat}

theorem fitsOffset_iff {off : Int} : fitsOffset off = true ↔ -32768 ≤ off ∧ off ≤ 32767 := by
  simp [fitsOffset]

/-- "A label operand encodes `off = label_offset - opcode_offset`", where the offset field holds it
(rule R81). -/
theorem assembleBody_goto_label (map : OpcodeMap) (hlabel : labels.lookup name = some a) :
    assembleBody map labels p .goto [.label name] =
      if fitsOffset ((a : Int) - p) then some (encode map (.goto ((a : Int) - p))) else none := by
  rw [assembleBody, buildInstr, branchOffset, hlabel]
  rfl

/-- Settles O23: in range, the bytes decode to the `goto` they encode, whose target is the label's
offset. -/
theorem assembledGotoReachesItsLabel : Obligations.AssembledGotoReachesItsLabel := by
  intro map labels p a name hmap hlabel
  rw [assembleBody_goto_label map hlabel]
  refine ⟨fun hout => if_neg ?_, fun hlo hhi => ?_⟩
  · rw [fitsOffset_iff]
    omega
  · have hfits : fitsOffset ((a : Int) - p) = true := fitsOffset_iff.mpr ⟨hlo, hhi⟩
    have hdecode := decode_encode (i := .goto ((a : Int) - p)) hmap hfits []
    rw [List.append_nil] at hdecode
    exact ⟨_, _, if_pos hfits, hdecode, fun s hr hpc hin =>
      complete_branchTarget_inside hr (by omega) hin⟩

end Sys2Proof.Machine
end

section
/-! SUPPORT. The invariant: it holds at every start, every step keeps it, and what it says of the pc
register (spec/00_scope.md rules R8 to R12, spec/10_state.md). -/

namespace Sys2Proof.Machine

open Sys2Proof.Claims

variable {s t u : State} {i : Instr} {next : Nat}

/-! ### At a start -/

/-- Over a canonical buffer no longer than `PROG_MAX`, the start state meets the invariant: the pc,
the depth and the counter start at 0. -/
theorem State.inv_initial {p : Params} {m : Memory} (hp : p.Valid) (hwf : m.wf = true)
    (hlen : m.size ≤ p.progMax) : (State.initial p m).Inv where
  params := hp
  prog := hwf
  progLen := hlen
  pc := Nat.zero_le _
  capacity := by
    unfold withinCapacity
    split
    · trivial
    · exact Nat.zero_le _
  budget := by
    unfold withinBudget
    split
    · rfl
    · exact Nat.zero_le _

/-- Settles O47: the start state over the empty buffer. -/
theorem resetMeetsTheInvariant : Obligations.ResetMeetsTheInvariant :=
  State.inv_initial ⟨OpcodeMap.default_valid, by decide⟩ Memory.wf_empty (Nat.zero_le _)

/-- Settles O48: a start that is not refused binds a loaded buffer no longer than `PROG_MAX`. -/
theorem startMeetsTheInvariant : Obligations.StartMeetsTheInvariant := by
  intro bytes s t hp h
  obtain ⟨hlen, rfl⟩ := start_eq_next_iff.mp h
  exact State.inv_initial hp (Memory.wf_load bytes) hlen

theorem sessionStart_of_next {bytes : List Byte} {x : Session} (h : start bytes x.engine = .next t) :
    sessionStart bytes x = .next { engine := t, delivered := x.delivered } := by
  rw [sessionStart, h]

theorem sessionStart_of_refused {bytes : List Byte} {x : Session} {r : Refusal}
    (h : start bytes x.engine = .refused r) : sessionStart bytes x = .refused r := by
  rw [sessionStart, h]

/-- Settles O51: the start state over the loaded bytes, or the refusal of a longer program. -/
theorem startResetsEverythingAndBindsTheProgram :
    Obligations.StartResetsEverythingAndBindsTheProgram := by
  refine fun bytes x => ⟨fun hlen => ?_, fun hlong => ?_⟩
  · exact ⟨_, sessionStart_of_next (start_eq_next_iff.mpr ⟨hlen, rfl⟩), rfl, rfl, rfl,
      State.initial_locals _ _, rfl, rfl, rfl, rfl, rfl, Memory.read_load bytes⟩
  · exact sessionStart_of_refused (if_neg (Nat.not_le.mpr hlong))

/-- Settles O49: the pc is at most `PROG_LEN`, that at most `PROG_MAX`, and a legal register holds
every offset up to there. -/
theorem pcFitsItsRegister : Obligations.PcFitsItsRegister := fun s hinv =>
  calc s.pc
    _ ≤ s.prog.size := hinv.pc
    _ ≤ s.params.progMax := hinv.progLen
    _ < 2 ^ s.params.pcBits := hinv.params.pcBits

/-! ### Along a step -/

/-- The state a fault leaves meets the invariant, whatever was popped before it was raised. -/
theorem inv_faulted (hinv : s.Inv) (kind : FaultKind) {popped rest : List Word}
    (hs : s.stk = popped ++ rest) : (faulted kind (s.setStk rest)).Inv where
  params := hinv.params
  prog := hinv.prog
  progLen := hinv.progLen
  pc := hinv.pc
  capacity := withinCapacity_of_le (s := s) rfl (by simp [hs]) hinv.capacity
  budget := hinv.budget

/-- An instruction that completes where its bytes lie inside the buffer leaves the pc inside, or just
behind the last byte (rule R23). -/
theorem Completion.retire_pc_le (hu : Completion i s next u) (hin : s.pc + i.length ≤ s.prog.size) :
    (retire next u).pc ≤ s.prog.size := by
  have hnext : next ≤ s.prog.size := by
    rcases hu.next with rfl | ⟨hlt, -⟩
    · exact hin
    · exact hlt.le
  by_cases hr : u.run = .running
  · rwa [retire_pc_of_running next hr]
  · rw [retire_pc_of_halted next hr, hu.pc]
    omega

/-- Counting one instruction stays within a budget that was not used up (rule R241). -/
theorem withinBudget_of_ticked (hparams : t.params = s.params) (hicount : t.icount = ticked s)
    (hb : ¬budgetSpent s) (h : withinBudget s) : withinBudget t := by
  unfold withinBudget at *
  rw [hparams, hicount]
  cases hbudget : s.params.instrBudget with
  | none => simpa [ticked, hbudget] using h
  | some b =>
    have hne : b ≠ s.icount := fun e => hb (hbudget.trans (congrArg some e))
    simp only [ticked, hbudget] at h ⊢
    omega

/-- The state a completed instruction retires to meets the invariant. -/
theorem Completion.inv_retire (hu : Completion i s next u) (hinv : s.Inv) (hb : ¬budgetSpent s)
    (hin : s.pc + i.length ≤ s.prog.size) : (retire next u).Inv := by
  have hparams : (retire next u).params = s.params := (retire_params next).trans hu.params
  have hprog : (retire next u).prog = s.prog := (retire_prog next).trans hu.prog
  exact {
    params := hparams ▸ hinv.params
    prog := hprog ▸ hinv.prog
    progLen := hprog ▸ hparams ▸ hinv.progLen
    pc := hprog ▸ hu.retire_pc_le hin
    capacity := withinCapacity_of_le (retire_params next) (by simp) (hu.capacity hinv.capacity)
    budget := withinBudget_of_ticked hparams
      ((retire_icount next u).trans (ticked_congr hu.params hu.icount)) hb hinv.budget }

/-- Settles O46: a step's own fault changes the run state alone, and an instruction that decoded
inside the buffer raises a fault or completes. -/
theorem stepKeepsTheInvariant : Obligations.StepKeepsTheInvariant := by
  intro s t hinv h
  have own (kind : FaultKind) : (faulted kind s).Inv := inv_faulted hinv kind (popped := []) rfl
  rcases step_running (running_of_step h) with ⟨-, he⟩ | ⟨-, he | he⟩ | ⟨hb, i, rest, hd, he⟩
  case inr.inr =>
    rcases exec_cases i s with ⟨kind, popped, rest, hs, -, -, hx⟩ | ⟨next, u, hu, hx⟩ <;>
      obtain rfl := Host.Outcome.next.inj (h.symm.trans (he.trans hx))
    · exact inv_faulted hinv kind hs
    · exact hu.inv_retire hinv hb (decoded_inside hd)
  all_goals
    obtain rfl := Host.Outcome.next.inj (h.symm.trans he)
    exact own _

end Sys2Proof.Machine
end

section
/-! SUPPORT. The step at a decoded instruction: what stands at the pc is executed, when a step is
enabled, the endless `goto`, and the halt with status 0 (spec/40_fetch_decode_execute.md). -/

namespace Sys2Proof.Machine

open Sys2Proof.Claims

variable {s t : State} {i : Instr}

/-! ### From the bytes at the pc to the instruction -/

theorem fetch_of_decode {rest : List Byte}
    (hd : decode s.params.opcodeMap (s.prog.window s.pc) = .ok (i, rest)) : fetch s = .ok i s := by
  simp [fetch, hd]

theorem step_of_decode {rest : List Byte} (hr : s.run = .running) (hb : ¬budgetSpent s)
    (hd : decode s.params.opcodeMap (s.prog.window s.pc) = .ok (i, rest)) : step s = exec i s :=
  step_of_fetch_ok hr hb (fetch_of_decode hd)

/-- Settles O24: the decoded instruction is what the fetch answers. -/
theorem stepRunsTheDecodedInstruction : Obligations.StepRunsTheDecodedInstruction :=
  fun _ _ _ => step_of_decode

/-- At most three bytes that stand at the pc are the beginning of the window there (rule R56). -/
theorem window_of_standsAtPc {bytes : List Byte} (hlen : bytes.length ≤ maxLength)
    (h : standsAtPc s bytes) : ∃ rest, s.prog.window s.pc = bytes ++ rest := by
  have hprefix : bytes <+: s.prog.window s.pc := by
    refine List.prefix_iff_getElem?.mpr fun k hk => ?_
    rw [Memory.window_getElem? (hk.trans_le hlen), h k hk, List.getElem?_eq_getElem hk]
  obtain ⟨rest, hrest⟩ := hprefix
  exact ⟨rest, hrest.symm⟩

/-- An encoded instruction that stands at the pc is executed. -/
theorem step_of_standsAtPc (hr : s.run = .running) (hb : ¬budgetSpent s)
    (hmap : s.params.opcodeMap.Valid) (hwf : i.wellFormed = true)
    (h : standsAtPc s (encode s.params.opcodeMap i)) : step s = exec i s := by
  obtain ⟨rest, hw⟩ := window_of_standsAtPc ((encode_length _ i).trans_le (length_bounds _).2) h
  exact step_of_decode hr hb (hw ▸ decode_encode hmap hwf rest)

/-- Settles O25: the window begins with the encoding, which decodes to its instruction. -/
theorem stepExecutesTheInstructionStandingAtThePc :
    Obligations.StepExecutesTheInstructionStandingAtThePc :=
  fun _ _ => step_of_standsAtPc

/-! ### When a step is enabled -/

/-- Settles O26: a running engine answers a next state, and a halted one has no step. -/
theorem stepIsEnabledExactlyWhenRunning : Obligations.StepIsEnabledExactlyWhenRunning :=
  ⟨fun _ => ⟨fun ⟨_, h⟩ => running_of_step h, step_next_of_running⟩, fun _ => step_halted⟩

/-! ### goto 0 -/

/-- A state that steps to itself is the state after any number of steps. -/
theorem core_run_of_step_self (k : Nat) (h : step s = .next s) :
    Host.Core.run core k s = .next s := by
  induction k with
  | zero => rfl
  | succ k ih => rw [core_run_next k h, ih]

/-- Settles O37: the target of `goto 0` is the pc itself, which lies inside the buffer because a byte
stands there. -/
theorem gotoItselfNeverHalts : Obligations.GotoItselfNeverHalts := by
  intro s k hr hnone hmap hstands
  have hb : ¬budgetSpent s := by simp [budgetSpent, hnone]
  have hin : s.pc < s.prog.size := Memory.lt_of_read (hstands 0 (Nat.succ_pos _))
  have hgoto : exec (.goto 0) s = .next { s with pc := s.pc, icount := ticked s } :=
    complete_branchTarget_inside hr (by omega) hin
  have hcount : ticked s = s.icount := by rw [ticked, hnone]
  rw [hcount] at hgoto
  exact core_run_of_step_self k ((step_of_standsAtPc hr hb hmap rfl hstands).trans hgoto)

/-! ### Status 0 -/

/-- `return` alone halts a running engine with no fault (rule R206). -/
theorem eq_ret_of_exec_haltedOk (hr : s.run = .running) (h : exec i s = .next t)
    (ht : t.run = .haltedOk) : i = .ret := by
  obtain ⟨kind, rest, rfl⟩ | ⟨next, u, hu, rfl⟩ := exec_next_cases h
  · cases ht
  · rw [retire_run] at ht
    obtain ⟨hi, -⟩ | ⟨-, hrun⟩ := hu.run
    · exact hi
    · cases (hrun.trans hr).symm.trans ht

theorem haltedOk_iff_status : t.run = .haltedOk ↔ t.status = some 0 := by
  unfold State.status
  cases t.run <;> simp

/-- Settles O35: a step's own fault is no status of 0, so the step was `return`; and `return` always
halts with it. -/
theorem onlyReturnGivesStatusZero : Obligations.OnlyReturnGivesStatusZero := by
  refine fun s t hr h => ⟨⟨fun ht => ?_, fun ⟨hb, rest, hd⟩ => ?_⟩, haltedOk_iff_status,
    fun ht => step_halted (by simp [ht])⟩
  · refine ⟨fun hb => ?_, ?_⟩
    · obtain rfl := Host.Outcome.next.inj ((step_of_budgetSpent hr hb).symm.trans h)
      cases ht
    · obtain ⟨kind, rfl⟩ | ⟨i, rest, hd, he⟩ := step_next_cases h
      · cases ht
      · exact ⟨rest, eq_ret_of_exec_haltedOk hr he ht ▸ hd⟩
  · obtain rfl := Host.Outcome.next.inj
      ((exec_ret.symm.trans (step_of_decode hr hb hd).symm).trans h)
    rfl

end Sys2Proof.Machine
end

section
/-! SUPPORT. Words as wrapped integers, and the remainder (spec/00_scope.md rule R13,
spec/42_alu.md). -/

namespace Sys2Proof.Machine

open Sys2Proof.Claims

variable {a b : Word}

/-! ### The wrap to 32 bits is a ring homomorphism -/

theorem i32_add (v w : Int) : i32 (v + w) = i32 v + i32 w := BitVec.ofInt_add v w

theorem i32_mul (v w : Int) : i32 (v * w) = i32 v * i32 w := BitVec.ofInt_mul v w

/-- Settles O57: the wrap of a word's own value is the word, and it drops multiples of `2^32`. -/
theorem wrappedValueIsUnique : Obligations.WrappedValueIsUnique := by
  refine fun v r => ⟨fun ⟨k, hk⟩ => ?_, fun hr => hr ▸ wraps_i32 v⟩
  have hzero : i32 4294967296 = 0 := by decide
  calc r
    _ = i32 r.toInt := (i32_toInt r).symm
    _ = i32 v + i32 k * i32 4294967296 := by rw [hk, i32_add, i32_mul]
    _ = i32 v := by rw [hzero, mul_zero, add_zero]

/-! ### Quotient and remainder, wrapped -/

/-- With `DIV_OVERFLOW_FAULT` unset the quotient is the wrapped truncating quotient for every
non-zero divisor: for the overflowing pair, `2^31` wraps to `-2^31`. -/
theorem aluDiv_false (hb : b ≠ 0) : aluDiv false a b = some (i32 (Int.tdiv a.toInt b.toInt)) := by
  by_cases hov : divOverflows a b
  · obtain ⟨rfl, rfl⟩ := divOverflows_iff.mp hov
    decide
  · exact aluDiv_of_not_overflow false hb hov

/-- The remainder of truncating division is a 32-bit value, being that of the library's word
remainder. -/
theorem i32_tmod_toInt (a b : Word) :
    (i32 (Int.tmod a.toInt b.toInt)).toInt = Int.tmod a.toInt b.toInt := by
  rw [← BitVec.toInt_srem, i32_toInt]

theorem aluRem_of_zero (overflowFaults : Bool) (hb : b = 0) : aluRem overflowFaults a b = none :=
  if_pos hb

theorem aluRem_of_overflow_faults (h : divOverflows a b) : aluRem true a b = none := by
  rw [aluRem, if_neg (ne_zero_of_divOverflows h), if_pos h, if_pos rfl]

/-- Where it raises nothing, the remainder is that of truncating division, the overflowing pair
included, whose remainder is 0. -/
theorem aluRem_of_divides {overflowFaults : Bool} (hb : b ≠ 0)
    (hno : ¬(overflowFaults = true ∧ divOverflows a b)) :
    aluRem overflowFaults a b = some (i32 (Int.tmod a.toInt b.toInt)) := by
  by_cases hov : divOverflows a b
  · have hunset : overflowFaults = false := by simpa using fun hset => hno ⟨hset, hov⟩
    obtain ⟨rfl, rfl⟩ := divOverflows_iff.mp hov
    rw [hunset]
    decide
  · rw [aluRem, if_neg hb, if_neg hov, ← Int.tmod_def]

/-- Settles O58: both results are wrapped values of integers for which the law holds. -/
theorem divisionLaw : Obligations.DivisionLaw := by
  intro a b hb
  refine ⟨_, _, aluDiv_false hb, aluRem_of_divides hb (by simp), ?_⟩
  calc a
    _ = i32 a.toInt := (i32_toInt a).symm
    _ = i32 (b.toInt * Int.tdiv a.toInt b.toInt + Int.tmod a.toInt b.toInt) := by
      rw [Int.mul_tdiv_add_tmod]
    _ = b * i32 (Int.tdiv a.toInt b.toInt) + i32 (Int.tmod a.toInt b.toInt) := by
      rw [i32_add, i32_mul, i32_toInt]

/-! ### rem -/

theorem underflowsBelowTwo_div : underflowsBelowTwo .div :=
  underflowsBelowTwo_of_aluOp (op := fun s => aluDiv s.params.divOverflowFault) fun _ => rfl

theorem underflowsBelowTwo_rem : underflowsBelowTwo .rem :=
  underflowsBelowTwo_of_aluOp (op := fun s => aluRem s.params.divOverflowFault) fun _ => rfl

/-- The remainder of truncating division has the dividend's sign, and is smaller than the divisor. -/
theorem tmod_sign_and_bound {x y : Int} (hy : y ≠ 0) :
    (0 < Int.tmod x y → 0 < x) ∧ (Int.tmod x y < 0 → x < 0) ∧ (Int.tmod x y).natAbs < y.natAbs := by
  refine ⟨fun hpos => ?_, fun hneg => ?_, ?_⟩
  · by_contra hx
    have := Int.tmod_nonneg y (a := -x) (by omega)
    rw [Int.neg_tmod] at this
    omega
  · by_contra hx
    have := Int.tmod_nonneg y (a := x) (by omega)
    omega
  · rw [Int.natAbs_tmod]
    exact Nat.mod_lt _ (Int.natAbs_pos.mpr hy)

/-- Settles O9: a zero divisor, the overflowing pair where it faults, and elsewhere the remainder of
truncating division, with that remainder's sign and bound. -/
theorem remFollowsTruncatingDivision : Obligations.RemFollowsTruncatingDivision := by
  refine ⟨rfl, underflowsBelowTwo_rem,
    fun s a b rest hr hs => ⟨fun hb => ?_, fun ha hb hset => ?_, fun ⟨hb, hno⟩ hc => ?_⟩⟩
  · exact fallThrough_aluOp_fault hs (aluRem_of_zero _ hb)
  · exact fallThrough_aluOp_fault hs (by rw [hset, aluRem_of_overflow_faults ⟨ha, hb⟩])
  · have hy : b.toInt ≠ 0 := fun h => hb (BitVec.toInt_inj.mp h)
    obtain ⟨hpos, hneg, hlt⟩ := tmod_sign_and_bound (x := a.toInt) hy
    rw [← i32_tmod_toInt a b] at hpos hneg hlt
    exact ⟨_, by rw [i32_tmod_toInt, Int.tmod_def], hpos, hneg, hlt,
      fallThrough_aluOp_result hr hc hs (aluRem_of_divides hb hno)⟩

end Sys2Proof.Machine
end

section
/-! SUPPORT. Faults: what one leaves, which kinds an instruction raises, and when it raises none
(spec/60_exceptions.md). -/

namespace Sys2Proof.Machine

open Sys2Proof.Claims

variable {s t : State} {i : Instr} {o : Host.Outcome State Fault Refusal} {P Q : Prop}
  {ks : List FaultKind}

/-! ### What a fault leaves -/

/-- Settles O31: a step's own fault has popped nothing, an instruction's at most two elements, and a
completion is no fault. -/
theorem faultFreezesEverythingButPops : Obligations.FaultFreezesEverythingButPops := by
  intro s t kind hr h ht
  obtain ⟨kind', rfl⟩ | ⟨i, -, -, he⟩ := step_next_cases h
  · cases ht
    exact ⟨rfl, [], Nat.zero_le _, rfl⟩
  · rcases exec_cases i s with ⟨kind', popped, rest, hs, hlen, -, hx⟩ | ⟨next, u, hu, hx⟩ <;>
      obtain rfl := Host.Outcome.next.inj (he.symm.trans hx)
    · cases ht
      exact ⟨rfl, popped, hlen, hs⟩
    · exact absurd ((retire_run next).symm.trans ht) (hu.run_ne_haltedFault hr kind)

/-! ### Clean exactly under a condition, and a listed fault otherwise -/

/-- The outcome is a next state that is no fault. -/
def IsClean (o : Host.Outcome State Fault Refusal) : Prop :=
  ∃ t, o = .next t ∧ ∀ kind, t.run ≠ .haltedFault kind

/-- The outcome is a fault of a listed kind. -/
def IsFaultOf (ks : List FaultKind) (o : Host.Outcome State Fault Refusal) : Prop :=
  ∃ kind ∈ ks, ∃ t, o = .next t ∧ t.run = .haltedFault kind

/-- The outcome is clean where the condition holds, and otherwise a fault of a listed kind. -/
def CleanIff (P : Prop) (ks : List FaultKind) (o : Host.Outcome State Fault Refusal) : Prop :=
  (P ∧ IsClean o) ∨ (¬P ∧ IsFaultOf ks o)

theorem CleanIff.clean (hP : P) (ho : o = .next t) (hr : t.run = .running) : CleanIff P ks o :=
  .inl ⟨hP, t, ho, by simp [hr]⟩

theorem CleanIff.fault {kind : FaultKind} (hP : ¬P) (hk : kind ∈ ks) (ho : o = .next t)
    (hr : t.run = .haltedFault kind) : CleanIff P ks o :=
  .inr ⟨hP, kind, hk, t, ho, hr⟩

theorem CleanIff.congr (h : CleanIff P ks o) (hPQ : P ↔ Q) : CleanIff Q ks o := by
  rwa [CleanIff, ← hPQ]

theorem cleanIff_push (n : Nat) (v : Word) (hr : s.run = .running) (hk : .capacityExceeded ∈ ks) :
    CleanIff (hasRoom s) ks (fallThrough n (push v s)) := by
  by_cases room : hasRoom s
  · exact .clean room (fallThrough_push_of_room n v hr room) hr
  · exact .fault room hk (fallThrough_push_of_full n v (not_not.mp room)) rfl

/-- A taken branch is clean exactly inside the buffer. -/
theorem cleanIff_branchTarget (off : Int) (hr : s.run = .running) (hk : .truncatedProgram ∈ ks) :
    CleanIff (targetInside off s) ks (complete (branchTarget off s)) := by
  by_cases hin : targetInside off s
  · obtain ⟨target, htarget⟩ := Int.eq_ofNat_of_zero_le hin.1
    exact .clean hin (complete_branchTarget_inside hr htarget.symm (by omega)) hr
  · exact .fault hin hk (complete_branchTarget_outside (by omega)) rfl

/-- The operands of an ALU instruction are there, and its operation has a result for them. -/
def HasAluResult (op : Word → Word → Option Word) (stk : List Word) : Prop :=
  ∃ b a rest, stk = b :: a :: rest ∧ (op a b).isSome

/-- Within the capacity an ALU instruction is clean exactly when it has a result: the push after two
pops never faults. -/
theorem cleanIff_aluOp {op : Word → Word → Option Word} (hr : s.run = .running)
    (hc : withinCapacity s) (hunder : .stackUnderflow ∈ ks)
    (hdiv : ∀ a b, op a b = none → .divisionByZero ∈ ks) :
    CleanIff (HasAluResult op s.stk) ks (fallThrough 1 (aluOp op s)) := by
  match hs : s.stk with
  | [] => exact .fault (by simp [HasAluResult]) hunder (by rw [aluOp_nil hs, fallThrough_raise]) rfl
  | [t] => exact .fault (by simp [HasAluResult]) hunder (by rw [aluOp_one hs, fallThrough_raise]) rfl
  | b :: a :: rest =>
    cases hop : op a b with
    | none =>
      exact .fault (by simp [HasAluResult, hop]) (hdiv a b hop) (fallThrough_aluOp_fault hs hop) rfl
    | some r =>
      exact .clean ⟨b, a, rest, rfl, by simp [hop]⟩ (fallThrough_aluOp_result hr hc hs hop) hr

/-- An operation with a result for every pair of operands needs no more than the operands. -/
theorem cleanIff_totalAluOp {f : Word → Word → Word} (hr : s.run = .running)
    (hc : withinCapacity s) (hunder : .stackUnderflow ∈ ks) :
    CleanIff (2 ≤ s.stk.length) ks (fallThrough 1 (aluOp (fun a b => some (f a b)) s)) := by
  refine (cleanIff_aluOp hr hc hunder (by simp)).congr ⟨?_, fun hlen => ?_⟩
  · rintro ⟨b, a, rest, hs, -⟩
    simp [hs]
  · match hs : s.stk with
    | [] | [_] => simp [hs] at hlen
    | b :: a :: rest => exact ⟨b, a, rest, rfl, rfl⟩

theorem aluDiv_isSome_iff {a b : Word} :
    (aluDiv s.params.divOverflowFault a b).isSome ↔ divides s a b := by
  refine ⟨fun hsome => ⟨fun hb => ?_, fun ⟨hset, hov⟩ => ?_⟩, fun hd => ?_⟩
  · simp [aluDiv_of_zero _ hb] at hsome
  · simp [aluDiv_of_overflow (a := a) (b := b) _ hov, hset] at hsome
  · obtain ⟨q, hq, -⟩ := aluDiv_of_divides hd
    simp [hq]

/-- The faults of `rem` are those of `div` (rule R156). -/
theorem aluRem_isSome (overflowFaults : Bool) (a b : Word) :
    (aluRem overflowFaults a b).isSome = (aluDiv overflowFaults a b).isSome := by
  unfold aluRem aluDiv
  split
  · rfl
  · split
    · cases overflowFaults <;> rfl
    · rfl

/-- An instruction that needs no more than a top element. -/
theorem cleanIff_top (hr : s.run = .running) (hunder : .stackUnderflow ∈ ks)
    (hnil : underflowsOnEmpty i)
    (hcons : ∀ x rest, s.stk = x :: rest → ∃ t, exec i s = .next t ∧ t.run = .running) :
    CleanIff (1 ≤ s.stk.length) ks (exec i s) := by
  cases hs : s.stk with
  | nil => exact .fault (by simp) hunder (hnil s hr hs) rfl
  | cons x rest =>
    obtain ⟨t, ht, hrun⟩ := hcons x rest hs
    exact .clean (by simp) ht hrun

/-- Every instruction, in a running state within the capacity, is clean exactly under its conditions,
and otherwise raises a fault listed for it. -/
theorem exec_cleanIff (i : Instr) (hr : s.run = .running) (hc : withinCapacity s) :
    CleanIff (mayExecute i s) (faultsListedFor i) (exec i s) := by
  cases i with
  | constZero => exact cleanIff_push 1 0 hr (by simp [faultsListedFor])
  | pushByte v => exact cleanIff_push 2 _ hr (by simp [faultsListedFor])
  | loadLocal n =>
    by_cases hn : n ≤ 9
    · rw [exec_loadLocal_fin ⟨n, Nat.lt_succ_of_le hn⟩]
      exact (cleanIff_push 2 _ hr (by simp [faultsListedFor])).congr
        ⟨fun room => ⟨hn, room⟩, And.right⟩
    · exact .fault (fun hmay => hn hmay.1) (by simp [faultsListedFor])
        (fallThrough_badIndex 2 _ (Nat.not_le.mp hn)) rfl
  | storeLocal n =>
    by_cases hn : n ≤ 9
    · have hlt : n < numLocals := Nat.lt_succ_of_le hn
      have h := cleanIff_top (i := .storeLocal n) hr (ks := faultsListedFor (.storeLocal n))
        (by simp [faultsListedFor]) (fun s _ => exec_storeLocal_nil ⟨n, hlt⟩)
        fun _ _ hs => ⟨_, exec_storeLocal_cons ⟨n, hlt⟩ hr hs, hr⟩
      exact h.congr ⟨fun hlen => ⟨hn, hlen⟩, And.right⟩
    · exact .fault (fun hmay => hn hmay.1) (by simp [faultsListedFor])
        (fallThrough_badIndex 2 _ (Nat.not_le.mp hn)) rfl
  | pop =>
    exact cleanIff_top hr (by simp [faultsListedFor]) underflowsOnEmpty_pop
      fun _ _ hs => ⟨_, exec_pop_cons hr hs, hr⟩
  | dup =>
    cases hs : s.stk with
    | nil =>
      exact .fault (by simp [mayExecute, hs]) (by simp [faultsListedFor])
        (underflowsOnEmpty_dup s hr hs) rfl
    | cons x rest =>
      rw [exec_dup_cons hs]
      exact (cleanIff_push 1 x hr (by simp [faultsListedFor])).congr (by simp [mayExecute, hs])
  | add | sub | mul | shrArith => exact cleanIff_totalAluOp hr hc (by simp [faultsListedFor])
  | div =>
    exact (cleanIff_aluOp hr hc (by simp [faultsListedFor]) (by simp [faultsListedFor])).congr
      (by simp only [HasAluResult, aluDiv_isSome_iff, mayExecute])
  | rem =>
    exact (cleanIff_aluOp hr hc (by simp [faultsListedFor]) (by simp [faultsListedFor])).congr
      (by simp only [HasAluResult, aluRem_isSome, aluDiv_isSome_iff, mayExecute])
  | incLocal n d =>
    by_cases hn : n ≤ 9
    · exact .clean hn (exec_incLocal_fin ⟨n, Nat.lt_succ_of_le hn⟩ d hr) hr
    · exact .fault hn (by simp [faultsListedFor])
        (fallThrough_badIndex 3 _ (Nat.not_le.mp hn)) rfl
  | branchIfZero off =>
    cases hs : s.stk with
    | nil =>
      exact .fault (by simp [mayExecute, hs]) (by simp [faultsListedFor])
        (underflowsOnEmpty_branchIfZero off s hr hs) rfl
    | cons v rest =>
      by_cases hv : v = 0
      · rw [exec_branchIfZero_of_zero off hs hv]
        exact (cleanIff_branchTarget (s := s.setStk rest) off hr (by simp [faultsListedFor])).congr
          (by simp [mayExecute, targetInside, hs, hv])
      · exact .clean ⟨v, rest, hs, fun h => absurd h hv⟩
          (exec_branchIfZero_of_ne_zero off hr hs hv) hr
  | goto off => exact cleanIff_branchTarget off hr (by simp [faultsListedFor])
  | ret => exact .inl ⟨trivial, _, exec_ret, by simp⟩
  | print =>
    exact cleanIff_top hr (by simp [faultsListedFor]) underflowsOnEmpty_print
      fun _ _ hs => ⟨_, exec_print_cons hr hs, hr⟩

/-- Settles O32: a faulting instruction was not clean, so its fault is a listed one. -/
theorem instructionsRaiseOnlyTheirListedFaults :
    Obligations.InstructionsRaiseOnlyTheirListedFaults := by
  intro i s t kind hr hc h ht
  obtain ⟨-, u, hu, hclean⟩ | ⟨-, kind', hk, u, hu, hrun⟩ := exec_cleanIff i hr hc <;>
    obtain rfl := Host.Outcome.next.inj (hu.symm.trans h)
  · exact absurd ht (hclean kind)
  · cases hrun.symm.trans ht
    exact hk

/-- Settles O34: a fault is not clean, so the two cases of `exec_cleanIff` exclude each other. -/
theorem instructionRunsCleanExactlyUnderItsConditions :
    Obligations.InstructionRunsCleanExactlyUnderItsConditions := by
  intro i s hr hc
  obtain ⟨hmay, hclean⟩ | ⟨hnot, kind, -, t, ht, hrun⟩ := exec_cleanIff i hr hc
  · exact iff_of_true hmay hclean
  · refine iff_of_false hnot fun ⟨u, hu, hclean⟩ => ?_
    obtain rfl := Host.Outcome.next.inj (ht.symm.trans hu)
    exact hclean kind hrun

/-! ### The order of an instruction's own faults -/

/-- Settles O33: each fault is raised by the first check that fails, whatever the later ones would
find. -/
theorem instructionFaultsFollowTheirOrder : Obligations.InstructionFaultsFollowTheirOrder := by
  refine fun s hr => ⟨fun n hn _ => fallThrough_badIndex 2 _ hn,
    fun n hn _ => fallThrough_badIndex 2 _ hn, fun hs _ => underflowsOnEmpty_dup s hr hs,
    fun hs i hi => ?_, fun off hs _ => underflowsOnEmpty_branchIfZero off s hr hs⟩
  obtain rfl | rfl := hi
  · exact (underflowsBelowTwo_div s hr).2 0 hs
  · exact (underflowsBelowTwo_rem s hr).2 0 hs

end Sys2Proof.Machine
end

section
/-! SUPPORT. Frames: what an instruction leaves of the buffer, the parameters, the output and the bank,
and the events a step delivers (spec/10_state.md, spec/45_output.md). -/

namespace Sys2Proof.Machine

variable {s t : State} {i : Instr}

/-- Settles O38: the buffer and the parameters are the old ones. -/
theorem instructionsLeaveEveryProgramByte : Obligations.InstructionsLeaveEveryProgramByte :=
  fun _ _ _ h => ⟨exec_params h, by rw [exec_prog h], fun _ => by rw [exec_prog h]⟩

/-! ### The output -/

/-- The output grows by the top of the stack in `print`, and otherwise stays (rule R221). -/
theorem exec_out_cases (h : exec i s = .next t) :
    t.out = s.out ∨ (i = .print ∧ ∃ x rest, s.stk = x :: rest ∧ t.out = s.out ++ [x]) := by
  obtain ⟨kind, rest, rfl⟩ | ⟨next, u, hu, rfl⟩ := exec_next_cases h
  · exact .inl rfl
  · rw [retire_out]
    exact hu.out

/-- `print` with a top appends it, in a running and in a halted state. -/
theorem exec_print_out {x : Word} {rest : List Word} (hs : s.stk = x :: rest)
    (h : exec .print s = .next t) : t.out = s.out ++ [x] := by
  rw [exec, execPrint, peek_cons hs, Phase.ok_andThen, fallThrough_ok] at h
  obtain rfl := Host.Outcome.next.inj h
  exact retire_out _

/-- The events between two states are what the second output has more than the first. -/
theorem outEvents_of_append {events : List Word} (h : t.out = s.out ++ events) :
    outEvents s t = events := by
  rw [outEvents, h, List.drop_left]

/-- Settles O39: an output that grew, grew by `print` with a top. -/
theorem onlyPrintExtendsTheOutput : Obligations.OnlyPrintExtendsTheOutput := by
  refine fun i s t h => ⟨fun hi => ?_, fun _ hs => ?_, fun hi x rest hs => ?_⟩
  · exact (exec_out_cases h).resolve_right fun ⟨hprint, _⟩ => hi hprint
  · refine (exec_out_cases h).resolve_right fun ⟨_, x, rest, hcons, _⟩ => ?_
    cases hs.symm.trans hcons
  · have hout := exec_print_out hs (hi ▸ h)
    exact ⟨hout, outEvents_of_append hout⟩

/-- A step of a session that answers a next state is the engine's step, with its events delivered. -/
theorem sessionStep_eq_next_iff {x y : Session} :
    sessionStep x = .next y ↔ ∃ t, step x.engine = .next t ∧
      y = { engine := t, delivered := x.delivered ++ outEvents x.engine t } := by
  unfold sessionStep
  cases step x.engine <;> simp [eq_comm]

/-- Settles O55: the events delivered are those the step added to the output. -/
theorem eventsAreDeliveredInOrder : Obligations.EventsAreDeliveredInOrder := by
  intro x y h
  obtain ⟨t, ht, rfl⟩ := sessionStep_eq_next_iff.mp h
  obtain ⟨events, hlen, hout⟩ := step_out ht
  exact ⟨events, hlen, by rw [outEvents_of_append hout], hout⟩

/-! ### The bank -/

/-- A slot stays or the instruction is a store to it (rule R25). -/
theorem exec_slot_cases (k : Fin numLocals) (h : exec i s = .next t) :
    t.locals[k] = s.locals[k] ∨ i = .storeLocal k ∨ ∃ d, i = .incLocal k d := by
  obtain ⟨kind, rest, rfl⟩ | ⟨next, u, hu, rfl⟩ := exec_next_cases h
  · exact .inl rfl
  · rw [retire_locals]
    exact hu.locals k

/-- Settles O40: a slot that did not stay was stored to. -/
theorem slotsChangeOnlyByTheirOwnStores : Obligations.SlotsChangeOnlyByTheirOwnStores :=
  fun _ _ _ k h hne => (exec_slot_cases k h).resolve_left hne

/-- An instruction that uses no slot leaves the bank. -/
theorem exec_locals (hi : usesNoSlot i) (h : exec i s = .next t) : t.locals = s.locals := by
  obtain ⟨-, hstore, hinc⟩ := hi
  refine Vector.ext fun k hk => (exec_slot_cases ⟨k, hk⟩ h).resolve_right ?_
  rintro (hs | ⟨d, hd⟩)
  · exact hstore k hs
  · exact hinc k d hd

end Sys2Proof.Machine
end

section
/-! SUPPORT. Isolation and refinement: what an instruction, a step and a run do under a view that
replaces the bank, adds elements below the stack, removes the capacity, or changes the pc width. -/

namespace Sys2Proof.Machine

open Sys2Proof.Claims

variable {s t : State} {v : View}

/-- A view that adds nothing below the stack and keeps the capacity takes no fault away. -/
theorem View.not_loses (hdeep : v.deep = []) (hcap : v.uncapped = false) : ¬v.Loses t := by
  simp [View.Loses, hdeep, hcap]

/-! ### Another bank -/

/-- The view with another bank. -/
def bankView (bank : Vector Word numLocals) : View where
  deep := []
  bank := some bank
  uncapped := false
  pcBits := none

theorem bankView_of (bank : Vector Word numLocals) (s : State) :
    (bankView bank).of s = { s with locals := bank } := by
  simp [View.of, View.params, bankView]

/-- Settles O41: the instruction commutes with the view of another bank. -/
theorem otherInstructionsNeverReadTheBank : Obligations.OtherInstructionsNeverReadTheBank := by
  intro i s t bank hload hstore hinc h
  have hi : usesNoSlot i := ⟨hload, hstore, hinc⟩
  have hview := (exec_view (v := bankView bank) (.inl rfl) (.inr hi) h).resolve_right
    (View.not_loses rfl rfl)
  rw [bankView_of, bankView_of] at hview
  exact ⟨exec_locals hi h, hview⟩

/-! ### Elements below the stack -/

/-- The view with elements added below the stack, which must then be unbounded. -/
def deepView (deep : List Word) : View where
  deep := deep
  bank := none
  uncapped := true
  pcBits := none

theorem deepView_of {deep : List Word} (hcap : s.params.stackCapacity = none) :
    (deepView deep).of s = { s with stk := s.stk ++ deep } := by
  have hparams : (deepView deep).params s.params = s.params := by
    change { s.params with stackCapacity := none } = s.params
    rw [← hcap]
  rw [View.of, hparams]
  rfl

/-- Settles O42: the instruction commutes with the view of a deeper stack; an unbounded stack raises
no `CapacityExceeded` that the view could take away. -/
theorem deepStackIsNeitherReadNorWritten : Obligations.DeepStackIsNeitherReadNorWritten := by
  intro i s t deep hcap h hunder
  have hcap' : t.params.stackCapacity = none := by rw [exec_params h, hcap]
  have hkeeps : ¬(deepView deep).Loses t := by
    simp [View.Loses, hunder, hcap']
  have hview := (exec_view (v := deepView deep) (.inr rfl) (.inl rfl) h).resolve_right hkeeps
  rwa [deepView_of hcap, deepView_of hcap'] at hview

/-! ### Another pc width -/

/-- The view with another pc width. -/
def pcBitsView (n : Nat) : View where
  deep := []
  bank := none
  uncapped := false
  pcBits := some n

theorem pcBitsView_of (n : Nat) (s : State) : (pcBitsView n).of s = withPcBits n s := by
  simp [View.of, View.params, pcBitsView, withPcBits]

/-- Settles O44: a step commutes with the view of another pc width, and the width does not run a
halted engine. -/
theorem pcWidthIsNeverObservable : Obligations.PcWidthIsNeverObservable := by
  refine fun s n => ⟨fun t h => ?_, fun r h => ?_⟩
  · have hview := (step_view (v := pcBitsView n) (.inl rfl) rfl h).resolve_right
      (View.not_loses rfl rfl)
    rwa [pcBitsView_of, pcBitsView_of] at hview
  · have hr : s.run ≠ .running := fun hr => by
      obtain ⟨t, ht⟩ := step_next_of_running hr
      cases ht.symm.trans h
    exact (step_halted (s := withPcBits n s) hr).trans ((step_halted hr).symm.trans h)

/-! ### No capacity -/

/-- The view with the capacity removed. -/
def uncappedView : View where
  deep := []
  bank := none
  uncapped := true
  pcBits := none

theorem uncappedView_of (s : State) : uncappedView.of s = withCapacity none s := by
  simp [View.of, View.params, uncappedView, withCapacity]

/-- A step that does not raise `CapacityExceeded` is a step of the unbounded engine. -/
theorem step_withCapacity_none (h : step s = .next t)
    (ht : t.run ≠ .haltedFault .capacityExceeded) :
    step (withCapacity none s) = .next (withCapacity none t) := by
  have hkeeps : ¬uncappedView.Loses t := by simp [View.Loses, uncappedView, ht]
  have hview := (step_view (v := uncappedView) (.inr rfl) rfl h).resolve_right hkeeps
  rwa [uncappedView_of, uncappedView_of] at hview

/-- A run from a halted state ends there, with no step taken. -/
theorem eq_of_core_run_halted {k : Nat} (hr : s.run ≠ .running)
    (h : Host.Core.run core k s = .next t) : t = s := by
  cases k with
  | zero => exact (Host.Outcome.next.inj h).symm
  | succ k => cases (core_run_fault k (step_halted hr)).symm.trans h

/-- A run that does not end in `CapacityExceeded` is a run of the unbounded engine: a step that raised
it would have been the last. -/
theorem core_run_withCapacity_none {k : Nat} (h : Host.Core.run core k s = .next t)
    (ht : t.run ≠ .haltedFault .capacityExceeded) :
    Host.Core.run core k (withCapacity none s) = .next (withCapacity none t) := by
  induction k generalizing s with
  | zero =>
    obtain rfl := Host.Outcome.next.inj h
    rfl
  | succ k ih =>
    obtain ⟨u, hu, hrun⟩ := core_run_succ_eq_next h
    have hcap : u.run ≠ .haltedFault .capacityExceeded := fun hfull => by
      obtain rfl := eq_of_core_run_halted (by simp [hfull]) hrun
      exact ht hfull
    rw [core_run_next k (step_withCapacity_none hu hcap), ih hrun]

/-- Settles O45, by induction on the steps, whatever the capacity and the depth. -/
theorem boundedStackRefinesUnbounded : Obligations.BoundedStackRefinesUnbounded :=
  fun _ _ _ _ _ _ => core_run_withCapacity_none

end Sys2Proof.Machine
end
